-- ==== Sys2Proof/Word.lean ====
section
/-! DEFINITION. The value types of the hardware (spec 00_scope.md rules R8, R26): every quantity is
unsigned and has one of these fixed widths. -/

namespace Sys2Proof

/-- 8 bits: a memory cell, a general register, a timer, an immediate `KK` (R8 `REG_W`, `TIMER_W`). -/
abbrev Byte := BitVec 8

/-- 16 bits: an opcode, `PC`, `I`, a stack slot (R8 `PC_W`, `I_W`, `STACK_W`). -/
abbrev Word := BitVec 16

/-- 12 bits: the immediate `NNN` (R48). -/
abbrev Addr12 := BitVec 12

/-- One hexadecimal digit of an opcode used as a number or ignored (R47). -/
abbrev Nibble := BitVec 4

/-- The number of a general register, of a key or of a stack slot: 0..15 (R10, R15, R18). -/
abbrev RegIx := Fin 16

end Sys2Proof
end

