-- ==== Sys2Proof/Config.lean ====
section
/-! DEFINITION. What is fixed for the machine (spec 00_scope.md rules R8, R9) and the one free value,
the random byte (44_random_timers_keys.md rule R95). Every policy parameter of R9 has its default of
that rule (assumption 7); the defaults live in the meanings that use them. -/

namespace Sys2Proof

/-- `MEM_SIZE` (R8): addresses are 0x000..0xFFF. -/
abbrev Config.memSize : Nat := 0x1000

/-- `PROG_BASE` (R8): where `load_program` writes and where `PC` stands after reset. -/
abbrev Config.progBase : Nat := 0x200

/-- `MAX_PROG` (R8; 90_conflicts.md C1): the longest program `load_program` accepts. -/
abbrev Config.maxProg : Nat := 3584

/-- `STACK_DEPTH` (R8). -/
abbrev Config.stackDepth : Nat := 16

/-- `FB_W` (R8): columns of the framebuffer. -/
abbrev Config.fbWidth : Nat := 64

/-- `FB_H` (R8): rows of the framebuffer. -/
abbrev Config.fbHeight : Nat := 32

/-- `GLYPH_STRIDE` (R8): bytes per font glyph. -/
abbrev Config.glyphStride : Nat := 5

/-- The font table `FONT[0..79]`, glyph `d` at `5*d` (70_reset_and_hazards.md rule R131; `FONT_BASE` is 0).
The bytes are the spec's default of the parameter `FONT` (decision D26, assumption 6). -/
def Config.font : List Byte :=
  [0xF0, 0x90, 0x90, 0x90, 0xF0] ++  -- 0
  [0x20, 0x60, 0x20, 0x20, 0x70] ++  -- 1
  [0xF0, 0x10, 0xF0, 0x80, 0xF0] ++  -- 2
  [0xF0, 0x10, 0xF0, 0x10, 0xF0] ++  -- 3
  [0x90, 0x90, 0xF0, 0x10, 0x10] ++  -- 4
  [0xF0, 0x80, 0xF0, 0x10, 0xF0] ++  -- 5
  [0xF0, 0x80, 0xF0, 0x90, 0xF0] ++  -- 6
  [0xF0, 0x10, 0x20, 0x40, 0x40] ++  -- 7
  [0xF0, 0x90, 0xF0, 0x90, 0xF0] ++  -- 8
  [0xF0, 0x90, 0xF0, 0x10, 0xF0] ++  -- 9
  [0xF0, 0x90, 0xF0, 0x90, 0x90] ++  -- A
  [0xE0, 0x90, 0xE0, 0x90, 0xE0] ++  -- B
  [0xF0, 0x80, 0x80, 0x80, 0xF0] ++  -- C
  [0xE0, 0x90, 0x90, 0x90, 0xE0] ++  -- D
  [0xF0, 0x80, 0xF0, 0x80, 0xF0] ++  -- E
  [0xF0, 0x80, 0xF0, 0x80, 0x80]     -- F

/-- FREE VALUE (assumption 1): the byte `rand` that the host presents with the step that executes the
`n`-th CXKK (R95, R124). No body, so nothing can be proved of its value: "a model must treat `rand` as a
free 8-bit value" (R95). -/
opaque Config.rand : Nat → Byte

end Sys2Proof
end

