-- ==== Sys2Proof/Syntax.lean ====
section
/-! DEFINITION. The 34 instructions of the hardware, one constructor per row of spec/opcode_table.json in
the table's order (30_encoding.md rule R46). An operand is a field of the opcode (R47): `x`, `y` register
numbers, `kk`, `nnn`, `n` immediates. `ignored` is the digit that the decoder does not look at in 5XY0,
9XY0 (R56), 8XY6 and 8XYE (42_register_alu.md rules R82, R84): it is kept, so that an instruction and its
opcode determine each other, and no meaning reads it. -/

namespace Sys2Proof

/-- The instruction set (R46). -/
inductive Instr where
  /-- 00E0 `CLS` (R101). -/
  | cls
  /-- 00EE `RET` (R61). -/
  | ret
  /-- 1NNN `JP NNN` (R62). -/
  | jp (nnn : Addr12)
  /-- 2NNN `CALL NNN` (R63). -/
  | call (nnn : Addr12)
  /-- 3XKK `SE VX, KK` (R66). -/
  | seImm (x : RegIx) (kk : Byte)
  /-- 4XKK `SNE VX, KK` (R67). -/
  | sneImm (x : RegIx) (kk : Byte)
  /-- 5XY0 `SE VX, VY` (R68); the last digit is ignored. -/
  | seReg (x y : RegIx) (ignored : Nibble)
  /-- 6XKK `LD VX, KK` (R74). -/
  | ldImm (x : RegIx) (kk : Byte)
  /-- 7XKK `ADD VX, KK` (R75). -/
  | addImm (x : RegIx) (kk : Byte)
  /-- 8XY0 `LD VX, VY` (R76). -/
  | ldReg (x y : RegIx)
  /-- 8XY1 `OR VX, VY` (R77). -/
  | orReg (x y : RegIx)
  /-- 8XY2 `AND VX, VY` (R78). -/
  | andReg (x y : RegIx)
  /-- 8XY3 `XOR VX, VY` (R79). -/
  | xorReg (x y : RegIx)
  /-- 8XY4 `ADD VX, VY` (R80). -/
  | addReg (x y : RegIx)
  /-- 8XY5 `SUB VX, VY` (R81). -/
  | subReg (x y : RegIx)
  /-- 8XY6 `SHR VX` (R82); the Y digit is ignored. -/
  | shr (x : RegIx) (ignored : Nibble)
  /-- 8XY7 `SUBN VX, VY` (R83). -/
  | subnReg (x y : RegIx)
  /-- 8XYE `SHL VX` (R84); the Y digit is ignored. -/
  | shl (x : RegIx) (ignored : Nibble)
  /-- 9XY0 `SNE VX, VY` (R69); the last digit is ignored. -/
  | sneReg (x y : RegIx) (ignored : Nibble)
  /-- ANNN `LD I, NNN` (R86). -/
  | ldI (nnn : Addr12)
  /-- BNNN `JP V0, NNN` (R64). -/
  | jpV0 (nnn : Addr12)
  /-- CXKK `RND VX, KK` (R95). -/
  | rnd (x : RegIx) (kk : Byte)
  /-- DXYN `DRW VX, VY, N` (R102). -/
  | drw (x y : RegIx) (n : Nibble)
  /-- EX9E `SKP VX` (R70). -/
  | skp (x : RegIx)
  /-- EXA1 `SKNP VX` (R71). -/
  | sknp (x : RegIx)
  /-- FX07 `LD VX, DT` (R96). -/
  | ldVxDt (x : RegIx)
  /-- FX0A `LD VX, K` (R99). -/
  | ldVxK (x : RegIx)
  /-- FX15 `LD DT, VX` (R97). -/
  | ldDtVx (x : RegIx)
  /-- FX18 `LD ST, VX` (R98). -/
  | ldStVx (x : RegIx)
  /-- FX1E `ADD I, VX` (R87). -/
  | addI (x : RegIx)
  /-- FX29 `LD F, VX` (R88). -/
  | ldF (x : RegIx)
  /-- FX33 `LD B, VX` (R89). -/
  | ldB (x : RegIx)
  /-- FX55 `LD [I], VX` (R90). -/
  | storeRegs (x : RegIx)
  /-- FX65 `LD VX, [I]` (R91). -/
  | loadRegs (x : RegIx)
  deriving DecidableEq, Repr

end Sys2Proof
end

