-- ==== Sys2Proof/WellFormed.lean ====
section
/-! DEFINITION. The canonical instructions. The types of the operands already hold every field in its
range (R47, R48: every register number, every immediate is valid). What is left to check is the ignored
digit of the four rows that have one: "the canonical encoding, the one an assembler emits, has `n = 0`"
(30_encoding.md rules R56, R58). The machine runs the other instructions too (R54), with the meaning of
their canonical form. -/

namespace Sys2Proof

/-- `i` is the form an assembler emits: its ignored digit, where it has one, is 0 (R56, R58). -/
def Instr.wellFormed (i : Instr) : Bool :=
  match i with
  | .seReg _ _ ignored => ignored == 0
  | .sneReg _ _ ignored => ignored == 0
  | .shr _ ignored => ignored == 0
  | .shl _ ignored => ignored == 0
  | .cls | .ret | .jp _ | .call _ | .seImm _ _ | .sneImm _ _ | .ldImm _ _ | .addImm _ _
  | .ldReg _ _ | .orReg _ _ | .andReg _ _ | .xorReg _ _ | .addReg _ _ | .subReg _ _ | .subnReg _ _
  | .ldI _ | .jpV0 _ | .rnd _ _ | .drw _ _ _ | .skp _ | .sknp _ | .ldVxDt _ | .ldVxK _ | .ldDtVx _
  | .ldStVx _ | .addI _ | .ldF _ | .ldB _ | .storeRegs _ | .loadRegs _ => true

/-- The canonical instruction with the same meaning: the ignored digit set to 0 (R54, R56). -/
def Instr.canonical (i : Instr) : Instr :=
  match i with
  | .seReg x y _ => .seReg x y 0
  | .sneReg x y _ => .sneReg x y 0
  | .shr x _ => .shr x 0
  | .shl x _ => .shl x 0
  | .cls | .ret | .jp _ | .call _ | .seImm _ _ | .sneImm _ _ | .ldImm _ _ | .addImm _ _
  | .ldReg _ _ | .orReg _ _ | .andReg _ _ | .xorReg _ _ | .addReg _ _ | .subReg _ _ | .subnReg _ _
  | .ldI _ | .jpV0 _ | .rnd _ _ | .drw _ _ _ | .skp _ | .sknp _ | .ldVxDt _ | .ldVxK _ | .ldDtVx _
  | .ldStVx _ | .addI _ | .ldF _ | .ldB _ | .storeRegs _ | .loadRegs _ => i

end Sys2Proof
end

