-- ==== Sys2Proof/Decode.lean ====
section
/-! DEFINITION. The decoder and the encoder (30_encoding.md rules R45 to R56): the fields of an opcode,
two-level decode (family, then a second discriminant in families 0, 8, E and F), total on every word and
every list of bytes, with a named reason for each word that is no instruction; the encoder; and the
match and mask columns of the opcode table. -/

namespace Sys2Proof

/-- Why bytes are no instruction. The words of the last four are the invalid opcodes of R54; what the machine
does with them is R112. Safe: the machine takes the step that R112 gives. -/
inductive Reject where
  /-- Fewer than the two bytes of an instruction (R45). Never met by the machine, whose fetch reads two bytes. -/
  | tooShort
  /-- A family-0 word other than 0x00E0 and 0x00EE (R50). -/
  | family0 (w : Word)
  /-- A family-8 word whose low digit is 8..0xD or 0xF (R51). -/
  | family8 (w : Word)
  /-- A family-E word whose low byte is neither 0x9E nor 0xA1 (R52). -/
  | familyE (w : Word)
  /-- A family-F word whose low byte is none of the nine of R53. -/
  | familyF (w : Word)
  deriving DecidableEq, Repr

/-- `F = opcode[15:12]`, the family (R47). -/
def fieldF (w : Word) : Nibble := w.extractLsb' 12 4

/-- `X = opcode[11:8]` as a register number (R47). -/
def fieldX (w : Word) : RegIx := (w.extractLsb' 8 4).toFin

/-- `Y = opcode[7:4]` as a register number (R47). -/
def fieldY (w : Word) : RegIx := (w.extractLsb' 4 4).toFin

/-- The digit `opcode[7:4]` itself: what 8XY6 and 8XYE ignore (R82, R84). -/
def fieldYDigit (w : Word) : Nibble := w.extractLsb' 4 4

/-- `N = opcode[3:0]` (R47). -/
def fieldN (w : Word) : Nibble := w.extractLsb' 0 4

/-- `KK = opcode[7:0]` (R47). -/
def fieldKK (w : Word) : Byte := w.extractLsb' 0 8

/-- `NNN = opcode[11:0]` (R47). -/
def fieldNNN (w : Word) : Addr12 := w.extractLsb' 0 12

/-- Family 0: the discriminant is the whole remaining 12 bits (R50). -/
def decodeFamily0 (w : Word) : Except Reject Instr :=
  if fieldNNN w = 0x0E0 then .ok .cls
  else if fieldNNN w = 0x0EE then .ok .ret
  else .error (.family0 w)

/-- Family 8: the discriminant is the low digit (R51, R57). -/
def decodeFamily8 (w : Word) : Except Reject Instr :=
  match fieldN w with
  | 0x0#4 => .ok (.ldReg (fieldX w) (fieldY w))
  | 0x1#4 => .ok (.orReg (fieldX w) (fieldY w))
  | 0x2#4 => .ok (.andReg (fieldX w) (fieldY w))
  | 0x3#4 => .ok (.xorReg (fieldX w) (fieldY w))
  | 0x4#4 => .ok (.addReg (fieldX w) (fieldY w))
  | 0x5#4 => .ok (.subReg (fieldX w) (fieldY w))
  | 0x6#4 => .ok (.shr (fieldX w) (fieldYDigit w))
  | 0x7#4 => .ok (.subnReg (fieldX w) (fieldY w))
  | 0xE#4 => .ok (.shl (fieldX w) (fieldYDigit w))
  | _ => .error (.family8 w)

/-- Family E: the discriminant is the low byte (R52). -/
def decodeFamilyE (w : Word) : Except Reject Instr :=
  match fieldKK w with
  | 0x9E#8 => .ok (.skp (fieldX w))
  | 0xA1#8 => .ok (.sknp (fieldX w))
  | _ => .error (.familyE w)

/-- Family F: the discriminant is the low byte (R53). -/
def decodeFamilyF (w : Word) : Except Reject Instr :=
  match fieldKK w with
  | 0x07#8 => .ok (.ldVxDt (fieldX w))
  | 0x0A#8 => .ok (.ldVxK (fieldX w))
  | 0x15#8 => .ok (.ldDtVx (fieldX w))
  | 0x18#8 => .ok (.ldStVx (fieldX w))
  | 0x1E#8 => .ok (.addI (fieldX w))
  | 0x29#8 => .ok (.ldF (fieldX w))
  | 0x33#8 => .ok (.ldB (fieldX w))
  | 0x55#8 => .ok (.storeRegs (fieldX w))
  | 0x65#8 => .ok (.loadRegs (fieldX w))
  | _ => .error (.familyF w)

/-- Decode of an opcode (R49): the high digit selects the family. The last arm is family 0xF. -/
def decodeWord (w : Word) : Except Reject Instr :=
  match fieldF w with
  | 0x0#4 => decodeFamily0 w
  | 0x1#4 => .ok (.jp (fieldNNN w))
  | 0x2#4 => .ok (.call (fieldNNN w))
  | 0x3#4 => .ok (.seImm (fieldX w) (fieldKK w))
  | 0x4#4 => .ok (.sneImm (fieldX w) (fieldKK w))
  | 0x5#4 => .ok (.seReg (fieldX w) (fieldY w) (fieldN w))
  | 0x6#4 => .ok (.ldImm (fieldX w) (fieldKK w))
  | 0x7#4 => .ok (.addImm (fieldX w) (fieldKK w))
  | 0x8#4 => decodeFamily8 w
  | 0x9#4 => .ok (.sneReg (fieldX w) (fieldY w) (fieldN w))
  | 0xA#4 => .ok (.ldI (fieldNNN w))
  | 0xB#4 => .ok (.jpV0 (fieldNNN w))
  | 0xC#4 => .ok (.rnd (fieldX w) (fieldKK w))
  | 0xD#4 => .ok (.drw (fieldX w) (fieldY w) (fieldN w))
  | 0xE#4 => decodeFamilyE w
  | _ => decodeFamilyF w

/-- Two consecutive bytes as an opcode: the byte at the lower address is the high byte (20_memory.md rule R32). -/
def opcodeOfBytes (hi lo : Byte) : Word := hi ++ lo

/-- The byte of an opcode that stands at the lower address (R32, R45). -/
def opcodeHigh (w : Word) : Byte := w.extractLsb' 8 8

/-- The byte of an opcode that stands at the higher address (R32, R45). -/
def opcodeLow (w : Word) : Byte := w.extractLsb' 0 8

/-- Decode the first instruction of a list of bytes and give the bytes after it (R45: always two bytes). -/
def decode (bytes : List Byte) : Except Reject (Instr × List Byte) :=
  match bytes with
  | hi :: lo :: rest =>
    match decodeWord (opcodeOfBytes hi lo) with
    | .ok i => .ok (i, rest)
    | .error r => .error r
  | [_] => .error .tooShort
  | [] => .error .tooShort

/-- What the decoder reads from an opcode-table row's word: the word's `nbits` low bits are laid out as two
bytes, high byte first (R45), and decoded. -/
def decodeTableWord (nbits w : Nat) : Option Instr :=
  let op : Word := BitVec.ofNat 16 (w % 2 ^ nbits)
  match decode [opcodeHigh op, opcodeLow op] with
  | .ok (i, _) => some i
  | .error _ => none

/-- A register number as a digit of an opcode (R47). -/
def regDigit (x : RegIx) : Nibble := BitVec.ofFin x

/-- Format `NNN` (R47): family, then the 12-bit immediate. -/
def formatNNN (f : Nibble) (nnn : Addr12) : Word := f ++ nnn

/-- Format `XKK` (R47), and format `X` with a fixed low byte. -/
def formatXKK (f : Nibble) (x : RegIx) (kk : Byte) : Word := f ++ regDigit x ++ kk

/-- Formats `XY` and `XYN` (R47): four digits. -/
def formatXYN (f : Nibble) (x : RegIx) (y n : Nibble) : Word := f ++ regDigit x ++ y ++ n

/-- The opcode of an instruction (R46, R47). -/
def encode (i : Instr) : Word :=
  match i with
  | .cls => 0x00E0
  | .ret => 0x00EE
  | .jp nnn => formatNNN 0x1 nnn
  | .call nnn => formatNNN 0x2 nnn
  | .seImm x kk => formatXKK 0x3 x kk
  | .sneImm x kk => formatXKK 0x4 x kk
  | .seReg x y ignored => formatXYN 0x5 x (regDigit y) ignored
  | .ldImm x kk => formatXKK 0x6 x kk
  | .addImm x kk => formatXKK 0x7 x kk
  | .ldReg x y => formatXYN 0x8 x (regDigit y) 0x0
  | .orReg x y => formatXYN 0x8 x (regDigit y) 0x1
  | .andReg x y => formatXYN 0x8 x (regDigit y) 0x2
  | .xorReg x y => formatXYN 0x8 x (regDigit y) 0x3
  | .addReg x y => formatXYN 0x8 x (regDigit y) 0x4
  | .subReg x y => formatXYN 0x8 x (regDigit y) 0x5
  | .shr x ignored => formatXYN 0x8 x ignored 0x6
  | .subnReg x y => formatXYN 0x8 x (regDigit y) 0x7
  | .shl x ignored => formatXYN 0x8 x ignored 0xE
  | .sneReg x y ignored => formatXYN 0x9 x (regDigit y) ignored
  | .ldI nnn => formatNNN 0xA nnn
  | .jpV0 nnn => formatNNN 0xB nnn
  | .rnd x kk => formatXKK 0xC x kk
  | .drw x y n => formatXYN 0xD x (regDigit y) n
  | .skp x => formatXKK 0xE x 0x9E
  | .sknp x => formatXKK 0xE x 0xA1
  | .ldVxDt x => formatXKK 0xF x 0x07
  | .ldVxK x => formatXKK 0xF x 0x0A
  | .ldDtVx x => formatXKK 0xF x 0x15
  | .ldStVx x => formatXKK 0xF x 0x18
  | .addI x => formatXKK 0xF x 0x1E
  | .ldF x => formatXKK 0xF x 0x29
  | .ldB x => formatXKK 0xF x 0x33
  | .storeRegs x => formatXKK 0xF x 0x55
  | .loadRegs x => formatXKK 0xF x 0x65

/-- The bytes of an instruction in memory order (R45). -/
def encodeBytes (i : Instr) : List Byte := [opcodeHigh (encode i), opcodeLow (encode i)]

/-- The `match` column of an instruction's row (R46). It names the row: no two rows have the same one. -/
def Instr.matchWord (i : Instr) : Word :=
  match i with
  | .cls => 0x00E0
  | .ret => 0x00EE
  | .jp _ => 0x1000
  | .call _ => 0x2000
  | .seImm _ _ => 0x3000
  | .sneImm _ _ => 0x4000
  | .seReg _ _ _ => 0x5000
  | .ldImm _ _ => 0x6000
  | .addImm _ _ => 0x7000
  | .ldReg _ _ => 0x8000
  | .orReg _ _ => 0x8001
  | .andReg _ _ => 0x8002
  | .xorReg _ _ => 0x8003
  | .addReg _ _ => 0x8004
  | .subReg _ _ => 0x8005
  | .shr _ _ => 0x8006
  | .subnReg _ _ => 0x8007
  | .shl _ _ => 0x800E
  | .sneReg _ _ _ => 0x9000
  | .ldI _ => 0xA000
  | .jpV0 _ => 0xB000
  | .rnd _ _ => 0xC000
  | .drw _ _ _ => 0xD000
  | .skp _ => 0xE09E
  | .sknp _ => 0xE0A1
  | .ldVxDt _ => 0xF007
  | .ldVxK _ => 0xF00A
  | .ldDtVx _ => 0xF015
  | .ldStVx _ => 0xF018
  | .addI _ => 0xF01E
  | .ldF _ => 0xF029
  | .ldB _ => 0xF033
  | .storeRegs _ => 0xF055
  | .loadRegs _ => 0xF065

/-- The `mask` column of an instruction's row (R46). -/
def Instr.maskWord (i : Instr) : Word :=
  match i with
  | .cls | .ret => 0xFFFF
  | .jp _ | .call _ | .seImm _ _ | .sneImm _ _ | .seReg _ _ _ | .ldImm _ _ | .addImm _ _
  | .sneReg _ _ _ | .ldI _ | .jpV0 _ | .rnd _ _ | .drw _ _ _ => 0xF000
  | .ldReg _ _ | .orReg _ _ | .andReg _ _ | .xorReg _ _ | .addReg _ _ | .subReg _ _ | .shr _ _
  | .subnReg _ _ | .shl _ _ => 0xF00F
  | .skp _ | .sknp _ | .ldVxDt _ | .ldVxK _ | .ldDtVx _ | .ldStVx _ | .addI _ | .ldF _ | .ldB _
  | .storeRegs _ | .loadRegs _ => 0xF0FF

end Sys2Proof
end

