-- ==== Sys2Proof/Machine/State.lean ====
section
/-! DEFINITION. The state of the machine (10_state.md): the ten items of rules R10 to R19, "and nothing
else is state", beside one counter of the model's own (`draws`, assumption 1); the faults of a step
(60_exceptions.md rule R110); the state after reset (R23, R130). -/

namespace Sys2Proof.Machine

/-- What an out-of-range address was used for (R110). -/
inductive AccessKind where
  /-- The fetch of an instruction (R32). -/
  | fetch
  /-- A data access of DXYN, FX33, FX55 or FX65 (R36). -/
  | data
  deriving DecidableEq, Repr

/-- The faults a step can raise, each with the information R110 records. A fault is the step's outcome
`FAULT`: the state after it is the state before it (R116), and control returns to the host. -/
inductive Fault where
  /-- Raised by 2NNN exactly when `SP = 16` (R63, R113); `pc` is the address of the 2NNN. Safe: the spec
  gives this fault (decision D11). -/
  | stackOverflow (pc : Word)
  /-- Raised by 00EE exactly when `SP = 0` (R61, R114); `pc` is the address of the 00EE. Safe: the spec gives
  this fault (decision D11). -/
  | stackUnderflow (pc : Word)
  /-- Raised by the fetch, by DXYN, FX33, FX55 and FX65 when their access list holds an address above 0x0FFF
  (R115): `addr` is the first such address, `pc` the address of the instruction. Safe: the spec gives this
  fault (decision D5). -/
  | addressError (kind : AccessKind) (addr : Nat) (pc : Word)
  deriving DecidableEq, Repr

/-- The reasons the model gives an instruction no meaning. -/
inductive Refusal where
  /-- Raised by an arm of `exec` whose instruction has no meaning yet. No arm raises it: all 34
  instructions are modelled. Safe. -/
  | notModelled (mnemonic : String)
  deriving DecidableEq, Repr

/-- `MEM` as plain data (R19): the cells that differ from the reset contents, addresses strictly rising
(`Memory.wf`). A cell that is not listed holds its reset content (`Memory.initial`). -/
abbrev Memory := List Host.Cell

/-- `FB` (R17, R100): 32 rows of 64 one-bit pixels. Pixel `(x, y)`, which the spec numbers `y*64 + x`, is
`fb[y][x]` (assumption 4). -/
abbrev FrameBuffer := Vector (Vector Bool 64) 32

/-- The architectural state (10_state.md). -/
structure State where
  /-- `V[0..15]`, 8 bits each (R10); `V[15]` is VF (R11). -/
  v : Vector Byte 16
  /-- `PC`, 16 bits (R12). -/
  pc : Word
  /-- `I`, 16 bits (R14). -/
  i : Word
  /-- `SP`, the number of live stack slots: 0..16 (R15). -/
  sp : Fin 17
  /-- `STK[0..15]`, 16 bits each (R15). -/
  stk : Vector Word 16
  /-- `DT`, the delay timer, 8 bits (R16). -/
  dt : Byte
  /-- `ST`, the sound timer, 8 bits (R16). -/
  st : Byte
  /-- `FB[0..2047]`, one bit each (R17). -/
  fb : FrameBuffer
  /-- `KEY[0..15]`: the key is pressed (R18). -/
  key : Vector Bool 16
  /-- `MEM[0..4095]`, 8 bits each (R19). -/
  mem : Memory
  /-- THE MODEL'S OWN FIELD, not the spec's (assumption 1): how many random bytes the host has presented to CXKK;
  `Config.rand draws` is the next one. -/
  draws : Nat
  deriving DecidableEq, Repr

/-- The state after `reset()` (R23, R130). The font stands in memory as the reset content of its addresses
(R131, `Memory.initial`). `draws` is the model's own (assumption 1). -/
def State.reset : State where
  v := Vector.replicate 16 0
  pc := 0x0200
  i := 0
  sp := 0
  stk := Vector.replicate 16 0
  dt := 0
  st := 0
  fb := Vector.replicate 32 (Vector.replicate 64 false)
  key := Vector.replicate 16 false
  mem := []
  draws := 0

end Sys2Proof.Machine
end

