-- ==== Sys2Proof/Machine/Ops.lean ====
section
/-! DEFINITION. The named operations over memory, registers, stack, framebuffer and keys that the meanings
are written with: memory and its bounds (20_memory.md), the fetch (R32), raising a fault (60_exceptions.md
rule R116), an invalid opcode (R112), the call stack (10_state.md rule R15) and sprite drawing
(45_display.md rule R102). -/

namespace Sys2Proof.Machine

/-! ### Memory -/

/-- The reset content of an address: the font at 0x000..0x04F, 0 elsewhere (R23, R131). It is what an
unlisted cell of `Memory` holds. -/
def Memory.initial (a : Nat) : Byte := Config.font.getD a 0

/-- `MemRead(addr, 1)` (R35). Reading has no side effect (R39). -/
def Memory.read (m : Memory) (a : Nat) : Byte :=
  match m with
  | [] => Memory.initial a
  | c :: cs => if c.1 = a then c.2 else Memory.read cs a

/-- Put a cell at its place in the rising order of addresses. -/
def Memory.insertCell (c : Host.Cell) (m : Memory) : Memory :=
  match m with
  | [] => [c]
  | d :: ds => if c.1 < d.1 then c :: d :: ds else d :: Memory.insertCell c ds

/-- `MemWrite(addr, 1, v)` (R35): the cell at `a` holds `b`, every other cell is as before (R39). A cell that
holds its reset content is not listed. -/
def Memory.write (m : Memory) (a : Nat) (b : Byte) : Memory :=
  let others := m.filter (fun c => c.1 != a)
  if b = Memory.initial a then others else Memory.insertCell (a, b) others

/-- The canonical form of a memory: addresses strictly rising, all of them in 0x000..0xFFF, no cell that
holds its reset content. Equal memories in this form are equal data. -/
abbrev Memory.wf (m : Memory) : Prop :=
  m.Pairwise (fun c d => c.1 < d.1) ∧ ∀ c ∈ m, c.1 < Config.memSize ∧ c.2 ≠ Memory.initial c.1

/-- Write bytes at ascending addresses from `a` (R38). -/
def Memory.store (m : Memory) (a : Nat) (bytes : List Byte) : Memory :=
  match bytes with
  | [] => m
  | b :: bs => Memory.store (m.write a b) (a + 1) bs

/-- The `n` bytes at ascending addresses from `a` (R38). -/
def Memory.load (m : Memory) (a n : Nat) : List Byte :=
  match n with
  | 0 => []
  | n + 1 => m.read a :: Memory.load m (a + 1) n

/-- The byte of `MEM` at address `a`. -/
def State.byte (s : State) (a : Nat) : Byte := s.mem.read a

/-! ### Registers -/

/-- `VF`: register 15 (R11). -/
def vf : RegIx := 15

/-- `V[x]` (R10). -/
def State.reg (s : State) (x : RegIx) : Byte := s.v[x.val]

/-- `V[x] <- b` (R10). -/
def State.setReg (s : State) (x : RegIx) (b : Byte) : State := { s with v := s.v.set x.val b }

/-- `I <- a` (R14). -/
def State.setI (s : State) (a : Word) : State := { s with i := a }

/-- `PC <- a`: the explicit set of jump, call and return (R13). -/
def State.setPc (s : State) (a : Word) : State := { s with pc := a }

/-- `PC <- (PC + 2) mod 2^16`, the fall through (R13, R55). -/
def State.advance (s : State) : State := { s with pc := s.pc + 2 }

/-- A skip (R65): the default +2 first, then an additional +2 if the condition holds. -/
def State.skipIf (s : State) (c : Bool) : State := if c then s.advance.advance else s.advance

/-- `DT <- b` (R97). -/
def State.setDt (s : State) (b : Byte) : State := { s with dt := b }

/-- `ST <- b` (R98). -/
def State.setSt (s : State) (b : Byte) : State := { s with st := b }

/-- The registers V0..VX, ascending (R90, R91). -/
def regsUpTo (x : RegIx) : List RegIx :=
  [0, 1, 2, 3, 4, 5, 6, 7, 8, 9, 10, 11, 12, 13, 14, 15].filter (fun r => r.val ≤ x.val)

/-- The bytes of V0..VX, ascending (R90). -/
def State.regBytes (s : State) (x : RegIx) : List Byte := (regsUpTo x).map s.reg

/-- `V[r] <- MEM[I + r]` for each register of a list, in order (R91). -/
def State.loadRegList (s : State) (rs : List RegIx) : State :=
  match rs with
  | [] => s
  | r :: rs => State.loadRegList (s.setReg r (s.byte (s.i.toNat + r.val))) rs

/-! ### Taking a fault, and the event of an invalid opcode -/

/-- `raise <Fault>(info)` (R116): the step ends with outcome `FAULT`. This is "the whole of trap entry for this
hardware": nothing is saved, no handler address, no change of mode; the state is that before the step and
control returns to the host. There is no return from a fault (R118): no instruction and no state for it. -/
def raise (f : Fault) : Host.Outcome State Fault Refusal := .fault f

/-- An invalid opcode (R112): nothing changes but `PC <- (p + 2) mod 2^16`, and the machine goes on. -/
def invalidOpcode (s : State) : Host.Outcome State Fault Refusal := .next s.advance

/-- The first out-of-range address of an access list that begins at `base` (R115): `max(base, 0x1000)`. -/
def firstOutOfRange (base : Nat) : Nat := max base Config.memSize

/-- An access list of `len` bytes from `base` holds an address above 0x0FFF (R35, R36). Addresses are
unbounded numbers, with no wrap at 0x1000 or 0x10000 (R35). -/
def outOfRange (base len : Nat) : Bool := decide (0 < len ∧ 0x0FFF < base + len - 1)

/-- Check the access list of `len` bytes from `I` before the first access and before any other change (R36); then
go on as `k`. -/
def State.checked (s : State) (len : Nat) (k : Host.Outcome State Fault Refusal) :
    Host.Outcome State Fault Refusal :=
  if outOfRange s.i.toNat len then raise (.addressError .data (firstOutOfRange s.i.toNat) s.pc) else k

/-! ### Fetch -/

/-- The opcode at `PC` (R32): two bytes, high byte first; an address above 0x0FFF is an `AddressError`. -/
def fetch (s : State) : Except Fault Word :=
  if outOfRange s.pc.toNat 2 then .error (.addressError .fetch (firstOutOfRange s.pc.toNat) s.pc)
  else .ok (opcodeOfBytes (s.byte s.pc.toNat) (s.byte (s.pc.toNat + 1)))

/-- The state with an opcode stored where the next fetch reads it. A `PC` that cannot be fetched from is set to
the entry point 0x200 first (assumption 5). -/
def State.placeOpcode (s : State) (w : Word) : State :=
  let p : Word := if outOfRange s.pc.toNat 2 then 0x0200 else s.pc
  { s with pc := p, mem := s.mem.store p.toNat [opcodeHigh w, opcodeLow w] }

/-! ### Call stack -/

/-- The stack slot `STK[k]` (R15). -/
def State.slot (s : State) (k : RegIx) : Word := s.stk[k.val]

/-- `STK[SP] <- a; SP <- SP + 1`, or `StackOverflow` when all 16 slots are live (R63, R113). -/
def State.push (s : State) (a : Word) : Except Fault State :=
  if h : s.sp.val < Config.stackDepth then
    .ok { s with stk := s.stk.set s.sp.val a h, sp := ⟨s.sp.val + 1, Nat.succ_lt_succ h⟩ }
  else .error (.stackOverflow s.pc)

/-- `SP <- SP - 1` and the slot at the new `SP`, or `StackUnderflow` when no slot is live (R61, R114). The slot keeps
its value (R15). -/
def State.pop (s : State) : Except Fault (Word × State) :=
  if h : 0 < s.sp.val then
    have below : s.sp.val - 1 < 16 := by have := s.sp.isLt; omega
    .ok (s.stk[s.sp.val - 1], { s with sp := ⟨s.sp.val - 1, Nat.lt_succ_of_lt below⟩ })
  else .error (.stackUnderflow s.pc)

/-! ### Keys and the random byte -/

/-- `KEY[k]` (R18). -/
def State.keyDown (s : State) (k : RegIx) : Bool := s.key[k.val]

/-- The least pressed key, if any key is pressed (R99: the scan goes upward from key 0). -/
def State.leastKeyDown (s : State) : Option RegIx :=
  [0, 1, 2, 3, 4, 5, 6, 7, 8, 9, 10, 11, 12, 13, 14, 15].find? s.keyDown

/-- The byte `rand` of this step (R95), a free value (assumption 1). -/
def State.rand (s : State) : Byte := Config.rand s.draws

/-- The random byte has been used: the next CXKK is presented another one (R95: "different or equal from step to
step"). -/
def State.drawn (s : State) : State := { s with draws := s.draws + 1 }

/-! ### Framebuffer -/

/-- Pixel `(x, y)` of a framebuffer (R100); `false` off the screen. -/
def FrameBuffer.pixel (fb : FrameBuffer) (x y : Nat) : Bool :=
  if h : x < 64 ∧ y < 32 then (fb[y]'h.2)[x]'h.1 else false

/-- Pixel `(x, y)` of the screen (R100). -/
def State.pixel (s : State) (x y : Nat) : Bool := s.fb.pixel x y

/-- All pixels 0 (R101). -/
def FrameBuffer.clear : FrameBuffer := Vector.replicate 32 (Vector.replicate 64 false)

/-- A drawing under way: the framebuffer and `hit`, whether a pixel has been turned off (R102). -/
structure Canvas where
  /-- The framebuffer drawn so far. -/
  fb : FrameBuffer
  /-- Some pixel has gone from 1 to 0. -/
  hit : Bool
  deriving DecidableEq, Repr

/-- Invert pixel `(x, y)`; a pixel past the right or bottom edge is clipped (R102, decision D23). -/
def drawPixel (x y : Nat) (c : Canvas) : Canvas :=
  if h : x < 64 ∧ y < 32 then
    { fb := c.fb.set y ((c.fb[y]'h.2).set x (!(c.fb[y]'h.2)[x]'h.1) h.1) h.2,
      hit := c.hit || (c.fb[y]'h.2)[x]'h.1 }
  else c

/-- Columns `cols` of a sprite row at `(x0, y)`: bit `7 - col` is column `col` (R100), and a 1 inverts its pixel
(R102). -/
def drawColumns (row : Byte) (x0 y : Nat) (cols : List Nat) (c : Canvas) : Canvas :=
  match cols with
  | [] => c
  | col :: rest =>
    drawColumns row x0 y rest (if row.getLsbD (7 - col) then drawPixel (x0 + col) y c else c)

/-- The rows of a sprite, each one pixel lower than the row before it (R100, R102). -/
def drawRows (rows : List Byte) (x0 y : Nat) (c : Canvas) : Canvas :=
  match rows with
  | [] => c
  | row :: rest => drawRows rest x0 (y + 1) (drawColumns row x0 y [0, 1, 2, 3, 4, 5, 6, 7] c)

end Sys2Proof.Machine
end

