-- ==== Sys2Proof/Machine/Operands.lean ====
section
/-! DEFINITION. The values the operands of an instruction stand for: immediates zero-extended (R48), the
key a register selects (R70, decision D19), the start of a sprite (R102), the decimal digits of FX33 (R89)
and the glyph address of FX29 (R88). A register operand is read with `State.reg` (R10). -/

namespace Sys2Proof.Machine

/-- `zext_16(NNN)` (R48). -/
def addrOfNNN (nnn : Addr12) : Word := nnn.setWidth 16

/-- `zext_16` of a register value (R64, R87). -/
def zextByte (b : Byte) : Word := b.setWidth 16

/-- The key a register value selects: its low four bits (R70, R71; decision D19). -/
def keyIndex (b : Byte) : RegIx := (b.extractLsb' 0 4).toFin

/-- A key number as a register value (R99: `zext_8`). -/
def keyByte (k : RegIx) : Byte := BitVec.ofNat 8 k.val

/-- The column where a sprite starts: `V[X] mod 64` (R102). -/
def spriteX (b : Byte) : Nat := b.toNat % Config.fbWidth

/-- The row where a sprite starts: `V[Y] mod 32` (R102). -/
def spriteY (b : Byte) : Nat := b.toNat % Config.fbHeight

/-- Hundreds, tens and units of a byte, in the order FX33 stores them (R89). -/
def bcdDigits (b : Byte) : List Byte :=
  [BitVec.ofNat 8 (b.toNat / 100), BitVec.ofNat 8 (b.toNat / 10 % 10), BitVec.ofNat 8 (b.toNat % 10)]

/-- The address FX29 leaves in `I`: five bytes a glyph, the font at 0x000; the whole byte is multiplied (R88). -/
def glyphAddress (b : Byte) : Word := BitVec.ofNat 16 (b.toNat * Config.glyphStride)

end Sys2Proof.Machine
end

