-- ==== Sys2Proof/Machine/Flags.lean ====
section
/-! DEFINITION. The arithmetic of the register instructions and the flag each leaves in VF
(42_register_alu.md rules R72, R73; 10_state.md rule R11). Results are computed exactly as natural numbers and
reduced mod 256 at the end; a flag is computed "from the operands as read, never from the truncated
result" (R72). -/

namespace Sys2Proof.Machine

/-- A flag value is always 0x00 or 0x01 (R11). -/
def flagByte (c : Bool) : Byte := if c then 1 else 0

/-- `(a + b) mod 256` (R73). -/
def sumByte (a b : Byte) : Byte := BitVec.ofNat 8 ((a.toNat + b.toNat) % 256)

/-- The carry of `a + b`: 1 iff the exact sum exceeds 255 (R73, R80). -/
def carryFlag (a b : Byte) : Byte := flagByte (decide (255 < a.toNat + b.toNat))

/-- `(a - b + 256) mod 256` (R73). -/
def differenceByte (a b : Byte) : Byte := BitVec.ofNat 8 ((a.toNat + 256 - b.toNat) % 256)

/-- NOT borrow of `a - b`: 1 iff `a >= b` (R73, R81; 1 when equal, decision D16). -/
def notBorrowFlag (a b : Byte) : Byte := flagByte (decide (b.toNat ≤ a.toNat))

/-- `a >> 1`, logical (R82). -/
def shiftedRight (a : Byte) : Byte := a >>> 1

/-- The bit shifted out to the right: bit 0 (R82). -/
def rightBitFlag (a : Byte) : Byte := flagByte (a.getLsbD 0)

/-- `(a << 1) mod 256` (R84). -/
def shiftedLeft (a : Byte) : Byte := a <<< 1

/-- The bit shifted out to the left: bit 7 (R84). -/
def leftBitFlag (a : Byte) : Byte := flagByte (a.getLsbD 7)

/-- The end of an instruction without a flag: the result to `V[X]`, `PC` past the instruction (R72). -/
def State.result (s : State) (x : RegIx) (r : Byte) : State := (s.setReg x r).advance

/-- The end of an instruction with a flag: the result to `V[X]`, then the flag to VF, `PC` past the instruction.
The flag is written last, so with X = F it is what remains (R72, decision D14). -/
def State.flaggedResult (s : State) (x : RegIx) (r flag : Byte) : State :=
  ((s.setReg x r).setReg vf flag).advance

end Sys2Proof.Machine
end

