-- ==== Sys2Proof/Machine/ControlTransfer.lean ====
section
/-! DEFINITION. Control transfer: 00EE, 1NNN, 2NNN, BNNN (40_control_transfer.md). A target is written to `PC` as it
stands; one at or above 0x0FFF faults at the next fetch, not here (R60). -/

namespace Sys2Proof.Machine

/-- 00EE `RET` (R61): the slot holds the address of the CALL, so the return lands two bytes after it. -/
def execRet (s : State) : Host.Outcome State Fault Refusal :=
  match s.pop with
  | .ok (a, t) => .next (t.setPc (a + 2))
  | .error f => raise f

/-- 1NNN `JP NNN` (R62). -/
def execJp (nnn : Addr12) (s : State) : Host.Outcome State Fault Refusal :=
  .next (s.setPc (addrOfNNN nnn))

/-- 2NNN `CALL NNN` (R63): pushes the address of the CALL itself. -/
def execCall (nnn : Addr12) (s : State) : Host.Outcome State Fault Refusal :=
  match s.push s.pc with
  | .ok t => .next (t.setPc (addrOfNNN nnn))
  | .error f => raise f

/-- BNNN `JP V0, NNN` (R64): the sum is not masked to 12 bits. -/
def execJpV0 (nnn : Addr12) (s : State) : Host.Outcome State Fault Refusal :=
  .next (s.setPc (addrOfNNN nnn + zextByte (s.reg 0)))

end Sys2Proof.Machine
end

