-- ==== Sys2Proof/Machine/Display.lean ====
section
/-! DEFINITION. Display instructions: 00E0, DXYN (45_display.md). -/

namespace Sys2Proof.Machine

/-- 00E0 `CLS` (R101). -/
def execCls (s : State) : Host.Outcome State Fault Refusal :=
  .next ({ s with fb := FrameBuffer.clear } : State).advance

/-- The drawing of DXYN (R102): `n` rows from `I` at `(V[X] mod 64, V[Y] mod 32)`, coordinates read before VF is
written. -/
def State.drawSprite (s : State) (x y : RegIx) (n : Nat) : Canvas :=
  drawRows (s.mem.load s.i.toNat n) (spriteX (s.reg x)) (spriteY (s.reg y)) { fb := s.fb, hit := false }

/-- DXYN `DRW VX, VY, N` (R102): the whole byte range is checked first, rows that clipping drops included
(decision D25); VF is the collision flag, always written. -/
def execDrw (x y : RegIx) (n : Nibble) (s : State) : Host.Outcome State Fault Refusal :=
  s.checked n.toNat
    (.next ((({ s with fb := (s.drawSprite x y n.toNat).fb } : State).setReg vf
      (flagByte (s.drawSprite x y n.toNat).hit)).advance))

end Sys2Proof.Machine
end

