-- ==== Sys2Proof/Machine/IndexMemory.lean ====
section
/-! DEFINITION. The index register and memory instructions: ANNN, FX1E, FX29, FX33, FX55, FX65
(43_index_memory.md). The addresses are `I + k`, all checked before anything changes (R36, R85); `I` is not changed
by a memory access (R85, decision D18). -/

namespace Sys2Proof.Machine

/-- ANNN `LD I, NNN` (R86). -/
def execLdI (nnn : Addr12) (s : State) : Host.Outcome State Fault Refusal :=
  .next (s.setI (addrOfNNN nnn)).advance

/-- FX1E `ADD I, VX` (R87): mod 2^16, no flag. -/
def execAddI (x : RegIx) (s : State) : Host.Outcome State Fault Refusal :=
  .next (s.setI (s.i + zextByte (s.reg x))).advance

/-- FX29 `LD F, VX` (R88). -/
def execLdF (x : RegIx) (s : State) : Host.Outcome State Fault Refusal :=
  .next (s.setI (glyphAddress (s.reg x))).advance

/-- The store of FX33 and FX55: bytes at ascending addresses from `I`, checked as a whole (R36). -/
def State.storeAtI (s : State) (bytes : List Byte) : Host.Outcome State Fault Refusal :=
  s.checked bytes.length
    (.next ({ s with mem := s.mem.store s.i.toNat bytes } : State).advance)

/-- FX33 `LD B, VX` (R89). -/
def execLdB (x : RegIx) (s : State) : Host.Outcome State Fault Refusal :=
  s.storeAtI (bcdDigits (s.reg x))

/-- FX55 `LD [I], VX` (R90). -/
def execStoreRegs (x : RegIx) (s : State) : Host.Outcome State Fault Refusal :=
  s.storeAtI (s.regBytes x)

/-- FX65 `LD VX, [I]` (R91). -/
def execLoadRegs (x : RegIx) (s : State) : Host.Outcome State Fault Refusal :=
  s.checked (x.val + 1) (.next (s.loadRegList (regsUpTo x)).advance)

end Sys2Proof.Machine
end

