-- ==== Sys2Proof/Machine/RandomTimersKeys.lean ====
section
/-! DEFINITION. Random number, timers and key wait: CXKK, FX07, FX15, FX18, FX0A (44_random_timers_keys.md). -/

namespace Sys2Proof.Machine

/-- CXKK `RND VX, KK` (R95): the free byte `rand` of this step, masked. -/
def execRnd (x : RegIx) (kk : Byte) (s : State) : Host.Outcome State Fault Refusal :=
  .next (s.result x (s.rand &&& kk)).drawn

/-- FX07 `LD VX, DT` (R96). -/
def execLdVxDt (x : RegIx) (s : State) : Host.Outcome State Fault Refusal :=
  .next (s.result x s.dt)

/-- FX15 `LD DT, VX` (R97). -/
def execLdDtVx (x : RegIx) (s : State) : Host.Outcome State Fault Refusal :=
  .next (s.setDt (s.reg x)).advance

/-- FX18 `LD ST, VX` (R98). -/
def execLdStVx (x : RegIx) (s : State) : Host.Outcome State Fault Refusal :=
  .next (s.setSt (s.reg x)).advance

/-- FX0A `LD VX, K` (R99): with no key pressed nothing changes and the same instruction is executed again at the
next step; there is no waiting flag (R22). -/
def execLdVxK (x : RegIx) (s : State) : Host.Outcome State Fault Refusal :=
  match s.leastKeyDown with
  | some k => .next (s.result x (keyByte k))
  | none => .next s

end Sys2Proof.Machine
end

