-- ==== Sys2Proof/Machine/RegisterAlu.lean ====
section
/-! DEFINITION. Register load and arithmetic: 6XKK, 7XKK, 8XY0 to 8XYE (42_register_alu.md). All operands are read
first (R72); none of these instructions faults or touches memory. -/

namespace Sys2Proof.Machine

/-- 6XKK `LD VX, KK` (R74). -/
def execLdImm (x : RegIx) (kk : Byte) (s : State) : Host.Outcome State Fault Refusal :=
  .next (s.result x kk)

/-- 7XKK `ADD VX, KK` (R75): the carry is discarded, VF is not written. -/
def execAddImm (x : RegIx) (kk : Byte) (s : State) : Host.Outcome State Fault Refusal :=
  .next (s.result x (sumByte (s.reg x) kk))

/-- 8XY0 `LD VX, VY` (R76). -/
def execLdReg (x y : RegIx) (s : State) : Host.Outcome State Fault Refusal :=
  .next (s.result x (s.reg y))

/-- 8XY1 `OR VX, VY` (R77): VF is not written as a flag (decision D13). -/
def execOrReg (x y : RegIx) (s : State) : Host.Outcome State Fault Refusal :=
  .next (s.result x (s.reg x ||| s.reg y))

/-- 8XY2 `AND VX, VY` (R78). -/
def execAndReg (x y : RegIx) (s : State) : Host.Outcome State Fault Refusal :=
  .next (s.result x (s.reg x &&& s.reg y))

/-- 8XY3 `XOR VX, VY` (R79). -/
def execXorReg (x y : RegIx) (s : State) : Host.Outcome State Fault Refusal :=
  .next (s.result x (s.reg x ^^^ s.reg y))

/-- 8XY4 `ADD VX, VY` (R80): VF is the carry out. -/
def execAddReg (x y : RegIx) (s : State) : Host.Outcome State Fault Refusal :=
  .next (s.flaggedResult x (sumByte (s.reg x) (s.reg y)) (carryFlag (s.reg x) (s.reg y)))

/-- 8XY5 `SUB VX, VY` (R81): VF is NOT borrow of `V[X] - V[Y]`. -/
def execSubReg (x y : RegIx) (s : State) : Host.Outcome State Fault Refusal :=
  .next (s.flaggedResult x (differenceByte (s.reg x) (s.reg y)) (notBorrowFlag (s.reg x) (s.reg y)))

/-- 8XY6 `SHR VX` (R82): `V[X]` in place, `V[Y]` is not read (decision D15). -/
def execShr (x : RegIx) (s : State) : Host.Outcome State Fault Refusal :=
  .next (s.flaggedResult x (shiftedRight (s.reg x)) (rightBitFlag (s.reg x)))

/-- 8XY7 `SUBN VX, VY` (R83): VF is NOT borrow of `V[Y] - V[X]`. -/
def execSubnReg (x y : RegIx) (s : State) : Host.Outcome State Fault Refusal :=
  .next (s.flaggedResult x (differenceByte (s.reg y) (s.reg x)) (notBorrowFlag (s.reg y) (s.reg x)))

/-- 8XYE `SHL VX` (R84). -/
def execShl (x : RegIx) (s : State) : Host.Outcome State Fault Refusal :=
  .next (s.flaggedResult x (shiftedLeft (s.reg x)) (leftBitFlag (s.reg x)))

end Sys2Proof.Machine
end

