-- ==== Sys2Proof/Machine/Step.lean ====
section
/-! DEFINITION. One step: exactly one fetch, decode and execute (30_encoding.md rule R55). -/

namespace Sys2Proof.Machine

/-- `step` (R55): fetch (may raise `AddressError`), decode (total), then the instruction's rule or the event of an
invalid opcode (R112). The random byte is `State.rand` (assumption 1). -/
def step (s : State) : Host.Outcome State Fault Refusal :=
  match fetch s with
  | .error f => raise f
  | .ok w =>
    match decodeWord w with
    | .error _ => invalidOpcode s
    | .ok i => exec i s

/-- The state with the instruction whose opcode is the `nbits` low bits of `w` stored where `step` fetches next
(assumption 5). -/
def State.withFetchWord (s : State) (nbits w : Nat) : State :=
  s.placeOpcode (BitVec.ofNat 16 (w % 2 ^ nbits))

end Sys2Proof.Machine
end

