-- ==== Sys2Proof/Machine/HostOps.lean ====
section
/-! DEFINITION. The operations of the machine's interface beside `step` (00_scope.md rule R6): `reset`, `load_program`,
`tick_timers`, `set_key`, `read_fb`, and the outcome record that `step` returns (60_exceptions.md rules R110, R111). Each is
an atomic transition of the whole state, and the host may issue them in any order between steps (R7): `perform`
is one operation, `performAll` a sequence of them. -/

namespace Sys2Proof.Machine

/-! ### The step outcome -/

/-- The status of a step (R111). -/
inductive Status where
  /-- One instruction executed. -/
  | ok
  /-- FX0A found no key pressed: the step made no progress. Not an error (R99). -/
  | waitKey
  /-- An invalid opcode was skipped (R112). -/
  | invalidOpcode
  /-- The step was abandoned (R116). -/
  | fault
  deriving DecidableEq, Repr

/-- The information recorded in an outcome (R110). -/
inductive Info where
  /-- Nothing recorded. -/
  | none
  /-- An invalid opcode and the `PC` it was fetched from. -/
  | opcode (w pc : Word)
  /-- What the fault records (`Fault`). -/
  | fault (f : Fault)
  deriving DecidableEq, Repr

/-- The record `(status, cause, info)` that `step` returns beside the new state (R111). It is no state: a later step does
not see it. -/
structure StepReport where
  /-- How the step ended. -/
  status : Status
  /-- The code of R110; 0 when there is no cause. -/
  cause : Nat
  /-- What R110 records for the cause. -/
  info : Info
  deriving DecidableEq, Repr

/-- The code of a fault (R110, decision D12). -/
def faultCode (f : Fault) : Nat :=
  match f with
  | .stackOverflow _ => 2
  | .stackUnderflow _ => 3
  | .addressError _ _ _ => 4

/-- The code of the event `InvalidOpcode` (R110). -/
def invalidOpcodeCode : Nat := 1

/-- The code of `ProgramTooLarge` (R110). -/
def programTooLargeCode : Nat := 5

/-- The outcome `OK` (R111). -/
def reportOk : StepReport := { status := .ok, cause := 0, info := .none }

/-- The outcome `WAIT_KEY` (R99, R111). -/
def reportWaitKey : StepReport := { status := .waitKey, cause := 0, info := .none }

/-- The outcome `INVALID_OPCODE(opcode, p)` (R112). -/
def reportInvalidOpcode (w pc : Word) : StepReport :=
  { status := .invalidOpcode, cause := invalidOpcodeCode, info := .opcode w pc }

/-- The outcome `FAULT` (R116). -/
def reportFault (f : Fault) : StepReport := { status := .fault, cause := faultCode f, info := .fault f }

/-- The instruction is an FX0A that finds no key pressed (R99). -/
def waitsForKey (i : Instr) (s : State) : Bool :=
  match i with
  | .ldVxK _ => s.leastKeyDown.isNone
  | _ => false

/-- The outcome record of the step from `s` (R111). The arm for a refusal is never taken: no instruction is refused. -/
def stepReport (s : State) : StepReport :=
  match fetch s with
  | .error f => reportFault f
  | .ok w =>
    match decodeWord w with
    | .error _ => reportInvalidOpcode w s.pc
    | .ok i =>
      match exec i s with
      | .next _ => if waitsForKey i s then reportWaitKey else reportOk
      | .fault f => reportFault f
      | .refused _ => { status := .fault, cause := 0, info := .none }

/-! ### The host's operations -/

/-- `reset()` from any state (R130): the state of R23. The count of random bytes already presented is not the machine's
state and goes on (assumption 1). -/
def hostReset (s : State) : State := { State.reset with draws := s.draws }

/-- Why `load_program` failed (R110, R132). -/
inductive LoadError where
  /-- `ProgramTooLarge`: longer than 3584 bytes; nothing has changed. Safe: the spec gives it. -/
  | programTooLarge (len : Nat)
  deriving DecidableEq, Repr

/-- `load_program(bytes)` (R132): all bytes to 0x200 and up, or nothing. -/
def loadProgram (bytes : List Byte) (s : State) : Except LoadError State :=
  if Config.maxProg < bytes.length then .error (.programTooLarge bytes.length)
  else .ok { s with mem := s.mem.store Config.progBase bytes }

/-- A timer one tick later, clamped at 0 (R121). -/
def tickByte (t : Byte) : Byte := if t = 0 then 0 else t - 1

/-- `tick_timers()` (R121): the two timers are independent. -/
def tickTimers (s : State) : State := { s with dt := tickByte s.dt, st := tickByte s.st }

/-- `set_key(k, b)` (R122). -/
def setKey (k : RegIx) (b : Bool) (s : State) : State := { s with key := s.key.set k.val b }

/-- `read_fb(idx)` (R123): pixel `idx = y*64 + x` as a byte 0x00 or 0x01. -/
def readFb (idx : Fin 2048) (s : State) : Byte :=
  flagByte (s.pixel (idx.val % Config.fbWidth) (idx.val / Config.fbWidth))

/-- One operation of the interface (R6). -/
inductive HostOp where
  /-- `reset()` (R130). -/
  | reset
  /-- `load_program(bytes)` (R132). -/
  | loadProgram (bytes : List Byte)
  /-- `step(rand)` (R55); `rand` is the free byte of assumption 1. -/
  | step
  /-- `tick_timers()` (R121). -/
  | tickTimers
  /-- `set_key(k, b)` (R122). -/
  | setKey (k : RegIx) (b : Bool)
  /-- `read_fb(idx)` (R123). -/
  | readFb (idx : Fin 2048)
  deriving DecidableEq, Repr

/-- What an operation returns to the host. -/
inductive Response where
  /-- The operation returns nothing. -/
  | done
  /-- The outcome of a `step` (R111). -/
  | outcome (r : StepReport)
  /-- `load_program` failed (R132): the code of R110 and the reason. -/
  | loadFailed (cause : Nat) (e : LoadError)
  /-- The byte of a `read_fb` (R123). -/
  | pixel (b : Byte)
  deriving DecidableEq, Repr

/-- The state after a `step` whatever its outcome: after a fault it is the state before (R116). The arm for a refusal is
never taken. -/
def stateAfterStep (s : State) : State :=
  match step s with
  | .next t => t
  | .fault _ => s
  | .refused _ => s

/-- Perform one operation: its answer to the host and the state after it (R6). -/
def perform (op : HostOp) (s : State) : Response × State :=
  match op with
  | .reset => (.done, hostReset s)
  | .loadProgram bytes =>
    match loadProgram bytes s with
    | .ok t => (.done, t)
    | .error e => (.loadFailed programTooLargeCode e, s)
  | .step => (.outcome (stepReport s), stateAfterStep s)
  | .tickTimers => (.done, tickTimers s)
  | .setKey k b => (.done, setKey k b s)
  | .readFb idx => (.pixel (readFb idx s), s)

/-- Perform operations in the order the host issues them (R6, R40): the answers and the state at the end. -/
def performAll (ops : List HostOp) (s : State) : List Response × State :=
  match ops with
  | [] => ([], s)
  | op :: rest =>
    let (r, t) := perform op s
    let (rs, u) := performAll rest t
    (r :: rs, u)

end Sys2Proof.Machine
end

