-- ==== Sys2Proof/Safety.lean ====
section
/-! DEFINITION. The terms in which claims about the machine are stated: what an instruction leaves unchanged,
the invariant of the machine, the values of the reset state, the `PC` each instruction leaves, the pixels a
sprite covers, and the words of an opcode-table row. Nothing here is run by the machine. -/

namespace Sys2Proof.Machine

/-- The items of the state beside `V` and `PC` (10_state.md). -/
inductive Item where
  /-- `I` (R14). -/
  | i
  /-- `SP` and `STK` (R15). -/
  | stack
  /-- `DT` (R16). -/
  | dt
  /-- `ST` (R16). -/
  | st
  /-- `FB` (R17). -/
  | screen
  /-- `KEY` (R18). -/
  | keys
  /-- `MEM` (R19). -/
  | memory
  /-- The model's own count of random bytes (assumption 1). -/
  | draws
  deriving DecidableEq, Repr

/-- The item reads the same in `t` as in `s`: every slot, pixel, key and byte of memory. -/
def SameItem (it : Item) (s t : State) : Prop :=
  match it with
  | .i => t.i = s.i
  | .stack => t.sp = s.sp ∧ ∀ k, t.slot k = s.slot k
  | .dt => t.dt = s.dt
  | .st => t.st = s.st
  | .screen => ∀ x y, t.pixel x y = s.pixel x y
  | .keys => ∀ k, t.keyDown k = s.keyDown k
  | .memory => ∀ a, t.byte a = s.byte a
  | .draws => t.draws = s.draws

/-- FRAME. Every register but those of `regs`, and every item but those of `items`, reads the same in `t` as in
`s`. `PC` is stated apart. -/
def KeepsAllBut (regs : List RegIx) (items : List Item) (s t : State) : Prop :=
  (∀ r, r ∉ regs → t.reg r = s.reg r) ∧ ∀ it, it ∉ items → SameItem it s t

/-- THE INVARIANT of the machine. Memory is in its canonical form; `PC` is at most 0x10FE (10_state.md rule R12); no stack
slot holds an address that could not be fetched from (R61: "a CALL can only push a `PC` it was fetched from, which is at
most 0x0FFE"). -/
abbrev State.Inv (s : State) : Prop :=
  Memory.wf s.mem ∧ s.pc.toNat ≤ 0x10FE ∧ ∀ k : RegIx, (s.slot k).toNat ≤ 0x0FFE

/-- The values of the table of R23, item by item. -/
def ResetValues (s : State) : Prop :=
  (∀ r, s.reg r = 0) ∧ s.pc = 0x0200 ∧ s.i = 0 ∧ s.sp = 0 ∧ (∀ k, s.slot k = 0) ∧ s.dt = 0 ∧ s.st = 0 ∧
  (∀ x y, s.pixel x y = false) ∧ (∀ k, s.keyDown k = false) ∧
  Config.font.length = 80 ∧ (∀ a, a ≤ 0x04F → Config.font[a]? = some (s.byte a)) ∧
  ∀ a, 0x050 ≤ a → a ≤ 0xFFF → s.byte a = 0

/-- Every word of a row (the words `w` with `w & mask = match`) decodes to the instruction `instr w` (R46, R47). -/
def RowDecodes (mask mtch : Word) (instr : Word → Instr) : Prop :=
  ∀ w : Word, w &&& mask = mtch → decodeWord w = .ok (instr w)

/-- The table of 10_state.md rule R13: the `PC` of `t`, the state after instruction `i` has run in `s`. -/
def PcRule (i : Instr) (s t : State) : Prop :=
  match i with
  | .jp nnn => t.pc.toNat = nnn.toNat
  | .call nnn => t.pc.toNat = nnn.toNat
  | .jpV0 nnn => t.pc.toNat = (nnn.toNat + (s.reg 0).toNat) % 65536
  | .ret => ∀ k : RegIx, k.val + 1 = s.sp.val → t.pc = s.slot k + 2
  | .seImm x kk => t.pc = if s.reg x = kk then s.pc + 4 else s.pc + 2
  | .sneImm x kk => t.pc = if s.reg x = kk then s.pc + 2 else s.pc + 4
  | .seReg x y _ => t.pc = if s.reg x = s.reg y then s.pc + 4 else s.pc + 2
  | .sneReg x y _ => t.pc = if s.reg x = s.reg y then s.pc + 2 else s.pc + 4
  | .skp x => ∀ k : RegIx, k.val = (s.reg x).toNat % 16 → t.pc = if s.keyDown k then s.pc + 4 else s.pc + 2
  | .sknp x => ∀ k : RegIx, k.val = (s.reg x).toNat % 16 → t.pc = if s.keyDown k then s.pc + 2 else s.pc + 4
  | .ldVxK _ => t.pc = if ∃ k, s.keyDown k = true then s.pc + 2 else s.pc
  | .cls | .ldImm _ _ | .addImm _ _ | .ldReg _ _ | .orReg _ _ | .andReg _ _ | .xorReg _ _ | .addReg _ _
  | .subReg _ _ | .shr _ _ | .subnReg _ _ | .shl _ _ | .ldI _ | .rnd _ _ | .drw _ _ _ | .ldVxDt _ | .ldDtVx _
  | .ldStVx _ | .addI _ | .ldF _ | .ldB _ | .storeRegs _ | .loadRegs _ => t.pc = s.pc + 2

/-- The instructions that write VF as a flag (10_state.md rule R11). -/
def writesFlag (i : Instr) : Bool :=
  match i with
  | .addReg _ _ | .subReg _ _ | .shr _ _ | .subnReg _ _ | .shl _ _ | .drw _ _ _ => true
  | .cls | .ret | .jp _ | .call _ | .seImm _ _ | .sneImm _ _ | .seReg _ _ _ | .ldImm _ _ | .addImm _ _ | .ldReg _ _
  | .orReg _ _ | .andReg _ _ | .xorReg _ _ | .sneReg _ _ _ | .ldI _ | .jpV0 _ | .rnd _ _ | .skp _ | .sknp _
  | .ldVxDt _ | .ldVxK _ | .ldDtVx _ | .ldStVx _ | .addI _ | .ldF _ | .ldB _ | .storeRegs _ | .loadRegs _ => false

/-- The instructions that write VF because it is their destination register (10_state.md rule R10). -/
def writesVfAsRegister (i : Instr) : Bool :=
  match i with
  | .ldImm x _ | .addImm x _ | .ldReg x _ | .orReg x _ | .andReg x _ | .xorReg x _ | .rnd x _ | .ldVxDt x | .ldVxK x
  | .loadRegs x | .addReg x _ | .subReg x _ | .shr x _ | .subnReg x _ | .shl x _ => x = 15
  | .cls | .ret | .jp _ | .call _ | .seImm _ _ | .sneImm _ _ | .seReg _ _ _ | .sneReg _ _ _ | .ldI _ | .jpV0 _
  | .drw _ _ _ | .skp _ | .sknp _ | .ldDtVx _ | .ldStVx _ | .addI _ | .ldF _ | .ldB _ | .storeRegs _ => false

/-- The sprite of `n` rows at `I`, started at column `x0` and row `y0`, has a 1 at pixel `(px, py)` (R100, R102): bit
`7 - c` of row byte `r`, with `c` the columns from `x0` and `r` the rows from `y0`. -/
def spriteBit (s : State) (x0 y0 n px py : Nat) : Bool :=
  decide (x0 ≤ px ∧ px < x0 + 8 ∧ y0 ≤ py ∧ py < y0 + n) &&
    (s.byte (s.i.toNat + (py - y0))).getLsbD (7 - (px - x0))

end Sys2Proof.Machine
end

