-- ==== Sys2Proof/Certificates/Slice0/Obligations.lean ====
section
/-! DEFINITION. The statements about the machine that are to be proved, each for every state, also for states that no run
reaches. `KeepsAllBut regs items s t` is the frame: what is not named reads in `t` as in `s` (Sys2Proof/Safety.lean). -/

open Sys2Proof Sys2Proof.Machine

/-! ### Encoding -/

/-- HEADLINE. Decode and encode agree on every instruction, with every operand at every value (30_encoding.md R45 to R47): the
word, and the two bytes in front of any others. That the ignored digit of R56, R82 and R84 is an operand that comes back too
is the model's choice (assumption 11). -/
def Obligations.DecodeOfEncodeIsTheInstruction : Prop :=
  ∀ i : Instr, decodeWord (encode i) = .ok i ∧
    ∀ rest : List Byte, decode (encodeBytes i ++ rest) = .ok (i, rest)

/-- Every word that decodes is the encoding of what it decodes to: the decoder drops no bit of a field of R47. That it keeps
the ignored digits of R56, R82 and R84 too is the model's choice (assumption 11): the spec says only that they are ignored. -/
def Obligations.EncodeOfDecodeIsTheWord : Prop :=
  ∀ (w : Word) (i : Instr), decodeWord w = .ok i → encode i = w

/-- The match and mask columns of the table (R46): "an opcode `w` is this instruction iff `(w & mask) = match`". The match
word names the row. -/
def Obligations.DecodesByMatchAndMask : Prop :=
  ∀ (i : Instr) (w : Word),
    w &&& i.maskWord = i.matchWord ↔ ∃ j, decodeWord w = .ok j ∧ j.matchWord = i.matchWord

/-- The invalid opcodes are exactly those of families 0, 8, E and F that R50 to R53 name. -/
def Obligations.InvalidOpcodesAreThoseOfFourFamilies : Prop :=
  ∀ w : Word, (∃ r, decodeWord w = .error r) ↔
    (fieldF w = 0x0 ∧ fieldNNN w ≠ 0x0E0 ∧ fieldNNN w ≠ 0x0EE) ∨
    (fieldF w = 0x8 ∧ fieldN w ∈ [0x8, 0x9, 0xA, 0xB, 0xC, 0xD, 0xF]) ∨
    (fieldF w = 0xE ∧ fieldKK w ∉ [0x9E, 0xA1]) ∨
    (fieldF w = 0xF ∧ fieldKK w ∉ [0x07, 0x0A, 0x15, 0x18, 0x1E, 0x29, 0x33, 0x55, 0x65])

/-- Words written out by hand from the encodings and examples of the instruction files decode to the instructions they
stand for, at least one for each of the 16 values of the high digit (R27). The ignored digit that three of them keep is the
model's choice (assumption 11). -/
def Obligations.WordsOfTheExamplesDecode : Prop :=
  decodeWord 0x00E0 = .ok .cls ∧ decodeWord 0x00EE = .ok .ret ∧ decodeWord 0x1ABC = .ok (.jp 0xABC) ∧
  decodeWord 0x2400 = .ok (.call 0x400) ∧ decodeWord 0x332A = .ok (.seImm 3 0x2A) ∧
  decodeWord 0x4F01 = .ok (.sneImm 15 0x01) ∧ decodeWord 0x5121 = .ok (.seReg 1 2 0x1) ∧
  decodeWord 0x6A42 = .ok (.ldImm 10 0x42) ∧ decodeWord 0x7220 = .ok (.addImm 2 0x20) ∧
  decodeWord 0x8F14 = .ok (.addReg 15 1) ∧ decodeWord 0x801E = .ok (.shl 0 0x1) ∧
  decodeWord 0x912F = .ok (.sneReg 1 2 0xF) ∧ decodeWord 0xA2F0 = .ok (.ldI 0x2F0) ∧
  decodeWord 0xB300 = .ok (.jpV0 0x300) ∧ decodeWord 0xC30F = .ok (.rnd 3 0x0F) ∧
  decodeWord 0xD013 = .ok (.drw 0 1 3) ∧ decodeWord 0xE4A1 = .ok (.sknp 4) ∧
  decodeWord 0xF533 = .ok (.ldB 5) ∧ decodeWord 0xF265 = .ok (.loadRegs 2)

/-- The ignored digit of 5XYn, 9XYn, 8XY6 and 8XYE has no effect: every instruction does what its canonical form does, and
the canonical form is one an assembler emits (R54, R56, R58). -/
def Obligations.IgnoredDigitHasNoEffect : Prop :=
  ∀ (i : Instr) (s : State), exec i s = exec i.canonical s ∧ i.canonical.wellFormed = true

/-! ### The step -/

/-- When the two bytes at `PC` are an opcode `w`, high byte first, that decodes to `i`, the step is `exec i` (R55). The
machine adds nothing around it: each instruction moves `PC` itself (R13). -/
def Obligations.StepRunsTheDecodedInstruction : Prop :=
  ∀ (s : State) (w : Word) (i : Instr), s.pc.toNat ≤ 0x0FFE →
    w.toNat = 256 * (s.byte s.pc.toNat).toNat + (s.byte (s.pc.toNat + 1)).toNat → decodeWord w = .ok i →
    step s = exec i s

/-- The fetch (R32): big-endian from `PC` and `PC + 1`; above 0x0FFE a fault with the lowest address that is out of
range. -/
def Obligations.FetchIsBigEndianOrFaults : Prop :=
  ∀ s : State,
    (s.pc.toNat ≤ 0x0FFE → ∃ w, fetch s = .ok w ∧
      w.toNat = 256 * (s.byte s.pc.toNat).toNat + (s.byte (s.pc.toNat + 1)).toNat) ∧
    (0x0FFE < s.pc.toNat →
      fetch s = .error (.addressError .fetch (if 0x0FFF < s.pc.toNat then s.pc.toNat else s.pc.toNat + 1) s.pc) ∧
      step s = .fault (.addressError .fetch (if 0x0FFF < s.pc.toNat then s.pc.toNat else s.pc.toNat + 1) s.pc))

/-- An invalid opcode (R112): only `PC` changes, by 2, and the outcome names the opcode and its address. -/
def Obligations.InvalidOpcodeOnlyAdvances : Prop :=
  ∀ (s : State) (w : Word) (r : Reject), fetch s = .ok w → decodeWord w = .error r →
    step s = .next { s with pc := s.pc + 2 } ∧
    stepReport s = { status := .invalidOpcode, cause := 1, info := .opcode w s.pc }

/-- A fault is precise and changes nothing (R116): the host gets the outcome `FAULT` with the fault and its code of R110 (2,
3 and 4), and the state after the step is the state before it. -/
def Obligations.FaultLeavesTheStateAsItWas : Prop :=
  ∀ (s : State) (f : Fault), step s = .fault f → ∃ c,
    perform .step s = (.outcome { status := .fault, cause := c, info := .fault f }, s) ∧
    (∀ pc, f = .stackOverflow pc → c = 2) ∧ (∀ pc, f = .stackUnderflow pc → c = 3) ∧
    (∀ kind addr pc, f = .addressError kind addr pc → c = 4)

/-- Which instruction can raise which fault, on which condition (R110, R113 to R115, R117). -/
def Obligations.FaultsOnlyFromTheirInstructions : Prop :=
  ∀ (i : Instr) (s : State) (f : Fault), exec i s = .fault f →
    (f = .stackOverflow s.pc ∧ s.sp.val = 16 ∧ ∃ nnn, i = .call nnn) ∨
    (f = .stackUnderflow s.pc ∧ s.sp.val = 0 ∧ i = .ret) ∨
    (f = .addressError .data (max s.i.toNat 0x1000) s.pc ∧
      ((∃ x y n, i = .drw x y n ∧ 0 < n.toNat ∧ 0x0FFF < s.i.toNat + n.toNat - 1) ∨
       (∃ x, i = .ldB x ∧ 0x0FFD < s.i.toNat) ∨
       (∃ x, i = .storeRegs x ∧ 0x0FFF < s.i.toNat + x.val) ∨
       (∃ x, i = .loadRegs x ∧ 0x0FFF < s.i.toNat + x.val)))

/-- No step is refused: every word has a meaning (R54, R55). -/
def Obligations.NoStepIsRefused : Prop :=
  ∀ (s : State) (r : Refusal), step s ≠ .refused r

/-- Keys and timer ticks cannot clear a fault: the same step raises the same fault after them (R118, which marks it as
derived). -/
def Obligations.FaultSurvivesKeysAndTicks : Prop :=
  ∀ (s : State) (f : Fault) (k : RegIx) (b : Bool), step s = .fault f →
    step (setKey k b s) = .fault f ∧ step (tickTimers s) = .fault f

/-- The outcome record of a step (R111): what each status says of the state after the step, and its cause; a fault's
cause is its code of R110. -/
def Obligations.OutcomeSaysWhatTheStepDid : Prop :=
  ∀ s : State,
    ((stepReport s).status = .ok → (stepReport s).cause = 0 ∧
      ∃ w i t, fetch s = .ok w ∧ decodeWord w = .ok i ∧ exec i s = .next t ∧ step s = .next t) ∧
    ((stepReport s).status = .waitKey → (stepReport s).cause = 0 ∧ step s = .next s ∧
      (∀ k, s.keyDown k = false) ∧ ∃ w x, fetch s = .ok w ∧ decodeWord w = .ok (.ldVxK x)) ∧
    ((stepReport s).status = .invalidOpcode → (stepReport s).cause = 1 ∧ step s = .next { s with pc := s.pc + 2 } ∧
      ∃ w r, fetch s = .ok w ∧ decodeWord w = .error r) ∧
    ((stepReport s).status = .fault →
      ((stepReport s).cause = 2 ∨ (stepReport s).cause = 3 ∨ (stepReport s).cause = 4) ∧ stateAfterStep s = s ∧
      ∃ f, step s = .fault f ∧ (stepReport s).info = .fault f ∧
        (∀ pc, f = .stackOverflow pc → (stepReport s).cause = 2) ∧
        (∀ pc, f = .stackUnderflow pc → (stepReport s).cause = 3) ∧
        (∀ kind addr pc, f = .addressError kind addr pc → (stepReport s).cause = 4))

/-! ### Reset and the whole machine -/

/-- The reset state has the values of the table of R23. -/
def Obligations.ResetStateHasTheValuesOfTheTable : Prop := ResetValues State.reset

/-- `reset()` from any state (R130): it cannot fail, leaves the values of R23 whatever the state before, and two resets
equal one. -/
def Obligations.ResetFromAnyState : Prop :=
  ∀ s : State, (perform .reset s).1 = .done ∧ ResetValues (perform .reset s).2 ∧
    (perform .reset (perform .reset s).2).2 = (perform .reset s).2

/-- The invariant holds at reset; its clause on memory is about the model's canonical form (assumption 9). -/
def Obligations.InvariantHoldsAtReset : Prop := State.reset.Inv

/-- HEADLINE. Every step keeps the invariant: memory in the model's canonical form (assumption 9), `PC` at most 0x10FE, and
only fetchable addresses on the stack (R12, R61, in sentences the spec marks as derived). -/
def Obligations.InvariantIsKeptByEveryStep : Prop :=
  ∀ s t : State, s.Inv → step s = .next t → t.Inv

/-- HEADLINE. Whatever operations the host issues, in whatever order (R6, R7), the invariant is kept, memory in the model's
canonical form (assumption 9) and only fetchable addresses on the stack (R61) included; so `PC` never passes
0x10FE in a run that starts from reset (R12, marked as derived there). -/
def Obligations.InvariantIsKeptByTheHost : Prop :=
  (∀ (ops : List HostOp) (s : State), s.Inv → (performAll ops s).2.Inv) ∧
  ∀ ops : List HostOp, (performAll ops State.reset).2.pc.toNat ≤ 0x10FE

/-- The table of R13: how each instruction, an invalid opcode and a fault leave `PC`. -/
def Obligations.PcFollowsTheTable : Prop :=
  (∀ (i : Instr) (s t : State), exec i s = .next t → PcRule i s t) ∧
  (∀ (s : State) (w : Word) (r : Reject), fetch s = .ok w → decodeWord w = .error r →
    (stateAfterStep s).pc = s.pc + 2) ∧
  (∀ (s : State) (f : Fault), step s = .fault f → (stateAfterStep s).pc = s.pc)

/-- Each item of the state is written only by its own instructions (R10, R14 to R18, R30): no instruction writes a key; `I` by
ANNN, FX1E, FX29; the stack by 2NNN and 00EE, a slot by 2NNN alone; `DT` by FX15; `ST` by FX18; pixels by 00E0 and DXYN; memory
by FX33 and FX55. The last clause is about the model's own count of random bytes (assumption 1). -/
def Obligations.EachItemHasItsWriters : Prop :=
  ∀ (i : Instr) (s t : State), exec i s = .next t →
    (∀ k, t.keyDown k = s.keyDown k) ∧
    (t.i ≠ s.i → (∃ nnn, i = .ldI nnn) ∨ (∃ x, i = .addI x) ∨ ∃ x, i = .ldF x) ∧
    (t.sp ≠ s.sp → i = .ret ∨ ∃ nnn, i = .call nnn) ∧
    ((∃ k, t.slot k ≠ s.slot k) → ∃ nnn, i = .call nnn) ∧
    (t.dt ≠ s.dt → ∃ x, i = .ldDtVx x) ∧
    (t.st ≠ s.st → ∃ x, i = .ldStVx x) ∧
    ((∃ x y, t.pixel x y ≠ s.pixel x y) → i = .cls ∨ ∃ x y n, i = .drw x y n) ∧
    ((∃ a, t.byte a ≠ s.byte a) → (∃ x, i = .ldB x) ∨ ∃ x, i = .storeRegs x) ∧
    (t.draws ≠ s.draws → ∃ x kk, i = .rnd x kk)

/-- VF (R11): the six flag instructions leave 0 or 1 in it, and nothing else changes it but an instruction whose
destination register it is. -/
def Obligations.VfIsWrittenOnlyAsAFlagOrARegister : Prop :=
  ∀ (i : Instr) (s t : State), exec i s = .next t →
    (writesFlag i = true → t.reg 15 = 0 ∨ t.reg 15 = 1) ∧
    (t.reg 15 ≠ s.reg 15 → writesFlag i = true ∨ writesVfAsRegister i = true)

/-! ### Control transfer -/

/-- 1NNN and BNNN (R62, R64): `PC` is the target, nothing else changes, and no target faults. -/
def Obligations.JumpsSetThePc : Prop :=
  RowDecodes 0xF000 0x1000 (fun w => .jp (fieldNNN w)) ∧ RowDecodes 0xF000 0xB000 (fun w => .jpV0 (fieldNNN w)) ∧
  ∀ (nnn : Addr12) (s : State),
    (∃ t, exec (.jp nnn) s = .next t ∧ t.pc.toNat = nnn.toNat ∧ KeepsAllBut [] [] s t) ∧
    (∃ t, exec (.jpV0 nnn) s = .next t ∧ t.pc.toNat = (nnn.toNat + (s.reg 0).toNat) % 65536 ∧ KeepsAllBut [] [] s t)

/-- 2NNN (R63): the address of the CALL itself is pushed; with all 16 slots live it is a `StackOverflow`. -/
def Obligations.CallPushesItsOwnAddress : Prop :=
  RowDecodes 0xF000 0x2000 (fun w => .call (fieldNNN w)) ∧
  ∀ (nnn : Addr12) (s : State),
    (s.sp.val = 16 → exec (.call nnn) s = .fault (.stackOverflow s.pc)) ∧
    (s.sp.val < 16 → ∃ t, exec (.call nnn) s = .next t ∧ t.sp.val = s.sp.val + 1 ∧ t.pc.toNat = nnn.toNat ∧
      (∀ k : RegIx, t.slot k = if k.val = s.sp.val then s.pc else s.slot k) ∧ KeepsAllBut [] [.stack] s t)

/-- 00EE (R61): `PC` is the most recent slot plus 2, mod 2^16, and no slot changes; with no live slot it is a
`StackUnderflow`. -/
def Obligations.ReturnGoesPastTheCall : Prop :=
  RowDecodes 0xFFFF 0x00EE (fun _ => .ret) ∧
  ∀ s : State,
    (s.sp.val = 0 → exec .ret s = .fault (.stackUnderflow s.pc)) ∧
    (∀ k : RegIx, k.val + 1 = s.sp.val → ∃ t, exec .ret s = .next t ∧ t.sp.val = k.val ∧
      t.pc.toNat = ((s.slot k).toNat + 2) % 65536 ∧ (∀ j, t.slot j = s.slot j) ∧ KeepsAllBut [] [.stack] s t)

/-- The round trip of 95_test_vectors.md S5: a CALL and then a RET, wherever the subroutine has taken `PC`, lands on the
instruction after the CALL with `SP` as before. -/
def Obligations.CallThenReturnComesBack : Prop :=
  ∀ (nnn : Addr12) (s : State) (p : Word), s.sp.val < 16 →
    ∃ t u, exec (.call nnn) s = .next t ∧ exec .ret { t with pc := p } = .next u ∧
      u.pc = s.pc + 2 ∧ u.sp = s.sp ∧ KeepsAllBut [] [.stack] s u

/-- A jump to itself (R62, R137): the step leaves the whole state as it is, with outcome `OK`. -/
def Obligations.JumpToItselfChangesNothing : Prop :=
  ∀ s : State, s.pc.toNat ≤ 0x0FFE →
    256 * (s.byte s.pc.toNat).toNat + (s.byte (s.pc.toNat + 1)).toNat = 0x1000 + s.pc.toNat →
    step s = .next s ∧ stepReport s = { status := .ok, cause := 0, info := .none }

/-! ### Skips -/

/-- 3XKK and 4XKK (R65 to R67): only `PC` changes, by 4 if the condition holds and by 2 if not. -/
def Obligations.SkipsOnAnImmediate : Prop :=
  RowDecodes 0xF000 0x3000 (fun w => .seImm (fieldX w) (fieldKK w)) ∧
  RowDecodes 0xF000 0x4000 (fun w => .sneImm (fieldX w) (fieldKK w)) ∧
  ∀ (x : RegIx) (kk : Byte) (s : State),
    exec (.seImm x kk) s = .next { s with pc := if s.reg x = kk then s.pc + 4 else s.pc + 2 } ∧
    exec (.sneImm x kk) s = .next { s with pc := if s.reg x = kk then s.pc + 2 else s.pc + 4 }

/-- 5XY0 and 9XY0 (R65, R68, R69), whatever the ignored digit: only `PC` changes. -/
def Obligations.SkipsOnTwoRegisters : Prop :=
  RowDecodes 0xF000 0x5000 (fun w => .seReg (fieldX w) (fieldY w) (fieldN w)) ∧
  RowDecodes 0xF000 0x9000 (fun w => .sneReg (fieldX w) (fieldY w) (fieldN w)) ∧
  ∀ (x y : RegIx) (ignored : Nibble) (s : State),
    exec (.seReg x y ignored) s = .next { s with pc := if s.reg x = s.reg y then s.pc + 4 else s.pc + 2 } ∧
    exec (.sneReg x y ignored) s = .next { s with pc := if s.reg x = s.reg y then s.pc + 2 else s.pc + 4 }

/-- EX9E and EXA1 (R65, R70, R71): the key is the low four bits of `V[X]`; only `PC` changes. -/
def Obligations.SkipsOnAKey : Prop :=
  RowDecodes 0xF0FF 0xE09E (fun w => .skp (fieldX w)) ∧ RowDecodes 0xF0FF 0xE0A1 (fun w => .sknp (fieldX w)) ∧
  ∀ (x k : RegIx) (s : State), k.val = (s.reg x).toNat % 16 →
    exec (.skp x) s = .next { s with pc := if s.keyDown k = true then s.pc + 4 else s.pc + 2 } ∧
    exec (.sknp x) s = .next { s with pc := if s.keyDown k = true then s.pc + 2 else s.pc + 4 }

/-! ### Register load and arithmetic -/

/-- 6XKK and 7XKK (R74, R75): the result is in `V[X]`, the carry of the addition is discarded, and VF is written only as
the destination. -/
def Obligations.LoadAndAddImmediate : Prop :=
  RowDecodes 0xF000 0x6000 (fun w => .ldImm (fieldX w) (fieldKK w)) ∧
  RowDecodes 0xF000 0x7000 (fun w => .addImm (fieldX w) (fieldKK w)) ∧
  ∀ (x : RegIx) (kk : Byte) (s : State),
    (∃ t, exec (.ldImm x kk) s = .next t ∧ t.reg x = kk ∧ t.pc = s.pc + 2 ∧ KeepsAllBut [x] [] s t) ∧
    (∃ t, exec (.addImm x kk) s = .next t ∧ (t.reg x).toNat = ((s.reg x).toNat + kk.toNat) % 256 ∧
      t.pc = s.pc + 2 ∧ KeepsAllBut [x] [] s t)

/-- 8XY0 to 8XY3 (R76 to R79): copy, OR, AND, XOR bit by bit; VF is written only as the destination. -/
def Obligations.MovesAndLogicLeaveVf : Prop :=
  RowDecodes 0xF00F 0x8000 (fun w => .ldReg (fieldX w) (fieldY w)) ∧
  RowDecodes 0xF00F 0x8001 (fun w => .orReg (fieldX w) (fieldY w)) ∧
  RowDecodes 0xF00F 0x8002 (fun w => .andReg (fieldX w) (fieldY w)) ∧
  RowDecodes 0xF00F 0x8003 (fun w => .xorReg (fieldX w) (fieldY w)) ∧
  ∀ (x y : RegIx) (s : State),
    (∃ t, exec (.ldReg x y) s = .next t ∧ t.reg x = s.reg y ∧ t.pc = s.pc + 2 ∧ KeepsAllBut [x] [] s t) ∧
    (∃ t, exec (.orReg x y) s = .next t ∧
      (∀ b, (t.reg x).getLsbD b = ((s.reg x).getLsbD b || (s.reg y).getLsbD b)) ∧
      t.pc = s.pc + 2 ∧ KeepsAllBut [x] [] s t) ∧
    (∃ t, exec (.andReg x y) s = .next t ∧
      (∀ b, (t.reg x).getLsbD b = ((s.reg x).getLsbD b && (s.reg y).getLsbD b)) ∧
      t.pc = s.pc + 2 ∧ KeepsAllBut [x] [] s t) ∧
    (∃ t, exec (.xorReg x y) s = .next t ∧
      (∀ b, (t.reg x).getLsbD b = ((s.reg x).getLsbD b ^^ (s.reg y).getLsbD b)) ∧
      t.pc = s.pc + 2 ∧ KeepsAllBut [x] [] s t)

/-- 8XY4 (R80): VF is the carry whatever X and Y are; the sum is in `V[X]` unless X is F, where the flag wins. -/
def Obligations.AddRegistersSetsTheCarry : Prop :=
  RowDecodes 0xF00F 0x8004 (fun w => .addReg (fieldX w) (fieldY w)) ∧
  ∀ (x y : RegIx) (s : State), ∃ t, exec (.addReg x y) s = .next t ∧
    (t.reg 15).toNat = (if (s.reg x).toNat + (s.reg y).toNat > 255 then 1 else 0) ∧
    (x ≠ 15 → (t.reg x).toNat = ((s.reg x).toNat + (s.reg y).toNat) % 256) ∧
    t.pc = s.pc + 2 ∧ KeepsAllBut [x, 15] [] s t

/-- 8XY5 (R81): VF is NOT borrow, 1 when the operands are equal; the difference is in `V[X]` unless X is F, where the
flag wins. -/
def Obligations.SubtractionSetsNotBorrow : Prop :=
  RowDecodes 0xF00F 0x8005 (fun w => .subReg (fieldX w) (fieldY w)) ∧
  ∀ (x y : RegIx) (s : State), ∃ t, exec (.subReg x y) s = .next t ∧
    (t.reg 15).toNat = (if (s.reg x).toNat ≥ (s.reg y).toNat then 1 else 0) ∧
    (x ≠ 15 → (t.reg x).toNat = ((s.reg x).toNat + 256 - (s.reg y).toNat) % 256) ∧
    t.pc = s.pc + 2 ∧ KeepsAllBut [x, 15] [] s t

/-- 8XY7 (R83), "the same subtraction as rule R81 with the operands exchanged, result still to `V[X]`": a sentence the spec
marks as derived from the name SUBN. -/
def Obligations.ReverseSubtractionExchangesOperands : Prop :=
  RowDecodes 0xF00F 0x8007 (fun w => .subnReg (fieldX w) (fieldY w)) ∧
  ∀ (x y : RegIx) (s : State), ∃ t, exec (.subnReg x y) s = .next t ∧
    (t.reg 15).toNat = (if (s.reg y).toNat ≥ (s.reg x).toNat then 1 else 0) ∧
    (x ≠ 15 → (t.reg x).toNat = ((s.reg y).toNat + 256 - (s.reg x).toNat) % 256) ∧
    t.pc = s.pc + 2 ∧ KeepsAllBut [x, 15] [] s t

/-- 8XY6 and 8XYE (R82, R84), whatever the ignored digit: one position, logical, in place; VF is the bit shifted out. -/
def Obligations.ShiftsSetTheBitShiftedOut : Prop :=
  RowDecodes 0xF00F 0x8006 (fun w => .shr (fieldX w) (fieldYDigit w)) ∧
  RowDecodes 0xF00F 0x800E (fun w => .shl (fieldX w) (fieldYDigit w)) ∧
  ∀ (x : RegIx) (ignored : Nibble) (s : State),
    (∃ t, exec (.shr x ignored) s = .next t ∧ (t.reg 15).toNat = (s.reg x).toNat % 2 ∧
      (x ≠ 15 → (t.reg x).toNat = (s.reg x).toNat / 2) ∧ t.pc = s.pc + 2 ∧ KeepsAllBut [x, 15] [] s t) ∧
    (∃ t, exec (.shl x ignored) s = .next t ∧ (t.reg 15).toNat = (s.reg x).toNat / 128 ∧
      (x ≠ 15 → (t.reg x).toNat = (s.reg x).toNat * 2 % 256) ∧ t.pc = s.pc + 2 ∧ KeepsAllBut [x, 15] [] s t)

/-! ### Index register and memory -/

/-- ANNN, FX1E, FX29 (R86 to R88): only `I` changes; the sum is taken mod 2^16 and sets no flag, and the whole byte is
multiplied by 5. -/
def Obligations.IndexRegisterIsSet : Prop :=
  RowDecodes 0xF000 0xA000 (fun w => .ldI (fieldNNN w)) ∧ RowDecodes 0xF0FF 0xF01E (fun w => .addI (fieldX w)) ∧
  RowDecodes 0xF0FF 0xF029 (fun w => .ldF (fieldX w)) ∧
  ∀ (nnn : Addr12) (x : RegIx) (s : State),
    (∃ t, exec (.ldI nnn) s = .next t ∧ t.i.toNat = nnn.toNat ∧ t.pc = s.pc + 2 ∧ KeepsAllBut [] [.i] s t) ∧
    (∃ t, exec (.addI x) s = .next t ∧ t.i.toNat = (s.i.toNat + (s.reg x).toNat) % 65536 ∧ t.pc = s.pc + 2 ∧
      KeepsAllBut [] [.i] s t) ∧
    (∃ t, exec (.ldF x) s = .next t ∧ t.i.toNat = (s.reg x).toNat * 5 ∧ t.pc = s.pc + 2 ∧ KeepsAllBut [] [.i] s t)

/-- FX33 (R89): hundreds, tens and units at `I`, `I+1`, `I+2`, no other byte changes; out of range, `AddressError`. -/
def Obligations.StoresThreeDecimalDigits : Prop :=
  RowDecodes 0xF0FF 0xF033 (fun w => .ldB (fieldX w)) ∧
  ∀ (x : RegIx) (s : State),
    (0x0FFD < s.i.toNat → exec (.ldB x) s = .fault (.addressError .data (max s.i.toNat 0x1000) s.pc)) ∧
    (s.i.toNat ≤ 0x0FFD → ∃ t, exec (.ldB x) s = .next t ∧
      (t.byte s.i.toNat).toNat = (s.reg x).toNat / 100 ∧
      (t.byte (s.i.toNat + 1)).toNat = (s.reg x).toNat / 10 % 10 ∧
      (t.byte (s.i.toNat + 2)).toNat = (s.reg x).toNat % 10 ∧
      (∀ a, a < s.i.toNat ∨ s.i.toNat + 3 ≤ a → t.byte a = s.byte a) ∧
      t.pc = s.pc + 2 ∧ KeepsAllBut [] [.memory] s t)

/-- FX55 (R90): `V[r]` at `I + r` for each register up to VX, no other byte changes, `I` is unchanged; out of range,
`AddressError`. -/
def Obligations.StoresRegistersAtI : Prop :=
  RowDecodes 0xF0FF 0xF055 (fun w => .storeRegs (fieldX w)) ∧
  ∀ (x : RegIx) (s : State),
    (0x0FFF < s.i.toNat + x.val →
      exec (.storeRegs x) s = .fault (.addressError .data (max s.i.toNat 0x1000) s.pc)) ∧
    (s.i.toNat + x.val ≤ 0x0FFF → ∃ t, exec (.storeRegs x) s = .next t ∧
      (∀ r : RegIx, r.val ≤ x.val → t.byte (s.i.toNat + r.val) = s.reg r) ∧
      (∀ a, a < s.i.toNat ∨ s.i.toNat + x.val < a → t.byte a = s.byte a) ∧
      t.pc = s.pc + 2 ∧ KeepsAllBut [] [.memory] s t)

/-- FX65 (R91): each register up to VX has the byte at `I` plus its number, the registers above are unchanged, `I` and
memory too; out of range, `AddressError`. -/
def Obligations.LoadsRegistersFromI : Prop :=
  RowDecodes 0xF0FF 0xF065 (fun w => .loadRegs (fieldX w)) ∧
  ∀ (x : RegIx) (s : State),
    (0x0FFF < s.i.toNat + x.val →
      exec (.loadRegs x) s = .fault (.addressError .data (max s.i.toNat 0x1000) s.pc)) ∧
    (s.i.toNat + x.val ≤ 0x0FFF → ∃ t, exec (.loadRegs x) s = .next t ∧
      (∀ r : RegIx, t.reg r = if r.val ≤ x.val then s.byte (s.i.toNat + r.val) else s.reg r) ∧
      t.pc = s.pc + 2 ∧ ∀ it, SameItem it s t)

/-- FX55 and then FX65 with the same X, whatever was done to the registers and to `PC` between them: V0..VX are back
(R90, R91, R39). -/
def Obligations.StoredRegistersLoadBack : Prop :=
  ∀ (x : RegIx) (s : State) (v : Vector Byte 16) (p : Word), s.i.toNat + x.val ≤ 0x0FFF →
    ∃ t u, exec (.storeRegs x) s = .next t ∧ exec (.loadRegs x) { t with v := v, pc := p } = .next u ∧
      ∀ r : RegIx, u.reg r = if r.val ≤ x.val then s.reg r else v[r.val]

/-- Stores are seen by the next fetch with nothing in between, first stored byte high (R38, R43): after FX55 the fetch at `I`
reads the opcode `V[0]`, `V[1]`. -/
def Obligations.StoredCodeIsFetched : Prop :=
  ∀ (x : RegIx) (s : State), 1 ≤ x.val → s.i.toNat + x.val ≤ 0x0FFF →
    ∃ t w, exec (.storeRegs x) s = .next t ∧ fetch { t with pc := s.i } = .ok w ∧
      w.toNat = 256 * (s.reg 0).toNat + (s.reg 1).toNat

/-! ### Random number, timers, key wait -/

/-- CXKK (R95): the random byte of this step, a free value, masked by `KK`. The clause on `draws` is about the model's own
count (assumption 1). -/
def Obligations.RandomByteIsMasked : Prop :=
  RowDecodes 0xF000 0xC000 (fun w => .rnd (fieldX w) (fieldKK w)) ∧
  ∀ (x : RegIx) (kk : Byte) (s : State), ∃ t, exec (.rnd x kk) s = .next t ∧
    (∀ b, (t.reg x).getLsbD b = ((Config.rand s.draws).getLsbD b && kk.getLsbD b)) ∧
    t.draws = s.draws + 1 ∧ t.pc = s.pc + 2 ∧ KeepsAllBut [x] [.draws] s t

/-- The random byte is ignored by every other instruction (R95): with another count of random bytes each does the same. -/
def Obligations.RandomByteIsIgnoredByTheOthers : Prop :=
  ∀ (i : Instr) (s : State) (n : Nat), (∀ x kk, i ≠ .rnd x kk) →
    (∀ t, exec i s = .next t → exec i { s with draws := n } = .next { t with draws := n }) ∧
    (∀ f, exec i s = .fault f → exec i { s with draws := n } = .fault f)

/-- FX07, FX15, FX18 (R96 to R98): the timers are read and written, never decremented, by these. -/
def Obligations.TimerMoves : Prop :=
  RowDecodes 0xF0FF 0xF007 (fun w => .ldVxDt (fieldX w)) ∧ RowDecodes 0xF0FF 0xF015 (fun w => .ldDtVx (fieldX w)) ∧
  RowDecodes 0xF0FF 0xF018 (fun w => .ldStVx (fieldX w)) ∧
  ∀ (x : RegIx) (s : State),
    (∃ t, exec (.ldVxDt x) s = .next t ∧ t.reg x = s.dt ∧ t.pc = s.pc + 2 ∧ KeepsAllBut [x] [] s t) ∧
    (∃ t, exec (.ldDtVx x) s = .next t ∧ t.dt = s.reg x ∧ t.pc = s.pc + 2 ∧ KeepsAllBut [] [.dt] s t) ∧
    (∃ t, exec (.ldStVx x) s = .next t ∧ t.st = s.reg x ∧ t.pc = s.pc + 2 ∧ KeepsAllBut [] [.st] s t)

/-- No instruction reads `ST` (R16): two states that differ in `ST` alone lead to states that differ in `ST` at most, and to
the same faults. -/
def Obligations.SoundTimerIsNeverRead : Prop :=
  ∀ (i : Instr) (s : State) (b : Byte),
    (∀ t, exec i s = .next t → ∃ c, exec i { s with st := b } = .next { t with st := c }) ∧
    (∀ f, exec i s = .fault f → exec i { s with st := b } = .fault f)

/-- The keys reach the machine only through EX9E, EXA1 and FX0A (R18, R30): every other instruction does the same whatever keys
are pressed. -/
def Obligations.KeysAreReadOnlyByKeyInstructions : Prop :=
  ∀ (i : Instr) (s : State) (key : Vector Bool 16), (∀ x, i ≠ .skp x ∧ i ≠ .sknp x ∧ i ≠ .ldVxK x) →
    (∀ t, exec i s = .next t → exec i { s with key := key } = .next { t with key := key }) ∧
    (∀ f, exec i s = .fault f → exec i { s with key := key } = .fault f)

/-- FX0A (R99): the least pressed key is in `V[X]`; with no key pressed nothing changes and the outcome of the step is
`WAIT_KEY`, with a key pressed it is `OK`. -/
def Obligations.KeyWaitTakesTheLeastKey : Prop :=
  RowDecodes 0xF0FF 0xF00A (fun w => .ldVxK (fieldX w)) ∧
  (∀ (x : RegIx) (s : State), (∀ k, s.keyDown k = false) → exec (.ldVxK x) s = .next s) ∧
  (∀ (x k : RegIx) (s : State), s.keyDown k = true → (∀ j : RegIx, j.val < k.val → s.keyDown j = false) →
    ∃ t, exec (.ldVxK x) s = .next t ∧ (t.reg x).toNat = k.val ∧ t.pc = s.pc + 2 ∧ KeepsAllBut [x] [] s t) ∧
  (∀ (s : State) (w : Word) (x : RegIx), fetch s = .ok w → decodeWord w = .ok (.ldVxK x) →
    (stepReport s).status = if ∃ k, s.keyDown k = true then .ok else .waitKey)

/-! ### Display -/

/-- 00E0 (R101): every pixel is 0 and nothing else changes. -/
def Obligations.ClearScreenClearsEveryPixel : Prop :=
  RowDecodes 0xFFFF 0x00E0 (fun _ => .cls) ∧
  ∀ s : State, ∃ t, exec .cls s = .next t ∧ (∀ x y, t.pixel x y = false) ∧ t.pc = s.pc + 2 ∧
    KeepsAllBut [] [.screen] s t

/-- DXYN (R102): the loop over rows and columns is, pixel by pixel, one XOR with the clipped sprite whose origin is
reduced mod 64 and mod 32; VF is 1 iff a screen pixel went from 1 to 0. A sprite that runs past 0x0FFF is an
`AddressError`; with N = 0 nothing is read, so there is no fault, nothing is drawn and VF is 0 (the spec marks its sentence
on N = 0 as derived). What R102 remarks of drawing twice is `DrawingTwiceRestoresTheScreen` (assumption 8). -/
def Obligations.DrawIsAClippedXor : Prop :=
  RowDecodes 0xF000 0xD000 (fun w => .drw (fieldX w) (fieldY w) (fieldN w)) ∧
  ∀ (x y : RegIx) (n : Nibble) (s : State),
    (0 < n.toNat → 0x0FFF < s.i.toNat + n.toNat - 1 →
      exec (.drw x y n) s = .fault (.addressError .data (max s.i.toNat 0x1000) s.pc)) ∧
    (n.toNat = 0 ∨ s.i.toNat + n.toNat - 1 ≤ 0x0FFF → ∃ t, exec (.drw x y n) s = .next t ∧
      (∀ px py, px < 64 → py < 32 → t.pixel px py =
        (s.pixel px py ^^ spriteBit s ((s.reg x).toNat % 64) ((s.reg y).toNat % 32) n.toNat px py)) ∧
      (t.reg 15 = 0 ∨ t.reg 15 = 1) ∧
      (t.reg 15 = 1 ↔ ∃ px py, px < 64 ∧ py < 32 ∧ s.pixel px py = true ∧ t.pixel px py = false) ∧
      t.pc = s.pc + 2 ∧ KeepsAllBut [15] [.screen] s t)

/-- Drawing the same sprite twice at the same place (95_test_vectors.md S8): the screen is as before, and the second draw
reports a collision iff the sprite has a visible 1 where the screen was 0, so always for a sprite with a visible 1 on a
blank area (assumption 8). The coordinates are the same in both draws when neither register is VF. -/
def Obligations.DrawingTwiceRestoresTheScreen : Prop :=
  ∀ (x y : RegIx) (n : Nibble) (s : State) (p : Word), x ≠ 15 → y ≠ 15 →
    (n.toNat = 0 ∨ s.i.toNat + n.toNat - 1 ≤ 0x0FFF) →
    ∃ t u, exec (.drw x y n) s = .next t ∧ exec (.drw x y n) { t with pc := p } = .next u ∧ u.fb = s.fb ∧
      (u.reg 15 = 1 ↔ ∃ px py, px < 64 ∧ py < 32 ∧ s.pixel px py = false ∧
        spriteBit s ((s.reg x).toNat % 64) ((s.reg y).toNat % 32) n.toNat px py = true)

/-! ### The host's operations -/

/-- `tick_timers()` (R121): each timer down by one, clamped at 0, and nothing else changes. -/
def Obligations.TickDecrementsBothTimers : Prop :=
  ∀ s : State, (perform .tickTimers s).1 = .done ∧
    (perform .tickTimers s).2.dt.toNat = s.dt.toNat - 1 ∧ (perform .tickTimers s).2.st.toNat = s.st.toNat - 1 ∧
    (perform .tickTimers s).2.pc = s.pc ∧ KeepsAllBut [] [.dt, .st] s (perform .tickTimers s).2

/-- `set_key(k, b)` (R122): one key is as written, and nothing else changes. -/
def Obligations.SetKeyWritesOneKey : Prop :=
  ∀ (k : RegIx) (b : Bool) (s : State), (perform (.setKey k b) s).1 = .done ∧
    (∀ j, (perform (.setKey k b) s).2.keyDown j = if j = k then b else s.keyDown j) ∧
    (perform (.setKey k b) s).2.pc = s.pc ∧ KeepsAllBut [] [.keys] s (perform (.setKey k b) s).2

/-- `read_fb(idx)` (R123): pixel `idx = y*64 + x` (R17) as 0 or 1; the state is unchanged. -/
def Obligations.ReadFbGivesThePixel : Prop :=
  ∀ (idx : Fin 2048) (x y : Nat) (s : State), x < 64 → y < 32 → idx.val = y * 64 + x →
    ∃ b : Byte, perform (.readFb idx) s = (.pixel b, s) ∧ b.toNat = if s.pixel x y = true then 1 else 0

/-- `load_program(bytes)` (R132): up to 3584 bytes go to 0x200 and up and nothing else changes ("no register, `PC` included, is
changed", which the spec marks as derived); more bytes fail with `ProgramTooLarge` and change nothing. -/
def Obligations.LoadProgramCopiesAllOrNothing : Prop :=
  ∀ (bytes : List Byte) (s : State),
    (3584 < bytes.length →
      perform (.loadProgram bytes) s = (.loadFailed 5 (.programTooLarge bytes.length), s)) ∧
    (bytes.length ≤ 3584 →
      (perform (.loadProgram bytes) s).1 = .done ∧
      (∀ (k : Nat) (h : k < bytes.length), (perform (.loadProgram bytes) s).2.byte (0x200 + k) = bytes[k]) ∧
      (∀ a, a < 0x200 ∨ 0x200 + bytes.length ≤ a → (perform (.loadProgram bytes) s).2.byte a = s.byte a) ∧
      (perform (.loadProgram bytes) s).2.pc = s.pc ∧ KeepsAllBut [] [.memory] s (perform (.loadProgram bytes) s).2)
end

