-- ==== Sys2Proof/Laws/Decode.lean ====
section
/-! SUPPORT. The fields of an opcode (30_encoding.md rule R47): as numbers, in the words that the encoder builds, and under
the masks of the opcode table. -/

namespace Sys2Proof

/-- Concatenation as a number (R26: `{a, b}`). -/
theorem toNat_concat {m n : Nat} (a : BitVec m) (b : BitVec n) : (a ++ b).toNat = a.toNat * 2 ^ n + b.toNat := by
  rw [BitVec.toNat_append, ← Nat.shiftLeft_add_eq_or_of_lt b.isLt, Nat.shiftLeft_eq]

theorem fieldF_toNat (w : Word) : (fieldF w).toNat = w.toNat / 4096 := by
  have := w.isLt
  simp [fieldF, Nat.shiftRight_eq_div_pow]; omega

theorem fieldX_val (w : Word) : (fieldX w).val = w.toNat / 256 % 16 := by
  simp [fieldX, Nat.shiftRight_eq_div_pow]

theorem fieldY_val (w : Word) : (fieldY w).val = w.toNat / 16 % 16 := by
  simp [fieldY, Nat.shiftRight_eq_div_pow]

theorem fieldYDigit_toNat (w : Word) : (fieldYDigit w).toNat = w.toNat / 16 % 16 := by
  simp [fieldYDigit, Nat.shiftRight_eq_div_pow]

theorem fieldN_toNat (w : Word) : (fieldN w).toNat = w.toNat % 16 := by
  simp [fieldN]

theorem fieldKK_toNat (w : Word) : (fieldKK w).toNat = w.toNat % 256 := by
  simp [fieldKK]

theorem fieldNNN_toNat (w : Word) : (fieldNNN w).toNat = w.toNat % 4096 := by
  simp [fieldNNN]

@[simp] theorem regDigit_toNat (x : RegIx) : (regDigit x).toNat = x.val := rfl

theorem formatNNN_toNat (f : Nibble) (nnn : Addr12) : (formatNNN f nnn).toNat = f.toNat * 4096 + nnn.toNat := by
  unfold formatNNN; rw [toNat_concat]; omega

theorem formatXKK_toNat (f : Nibble) (x : RegIx) (kk : Byte) :
    (formatXKK f x kk).toNat = f.toNat * 4096 + x.val * 256 + kk.toNat := by
  unfold formatXKK; rw [toNat_concat, toNat_concat, regDigit_toNat]; omega

theorem formatXYN_toNat (f : Nibble) (x : RegIx) (y n : Nibble) :
    (formatXYN f x y n).toNat = f.toNat * 4096 + x.val * 256 + y.toNat * 16 + n.toNat := by
  unfold formatXYN; rw [toNat_concat, toNat_concat, toNat_concat, regDigit_toNat]; omega

/-! The fields of the three formats -/

section
variable (f : Nibble) (x y : RegIx) (d n : Nibble) (kk : Byte) (nnn : Addr12)

@[simp] theorem fieldF_formatNNN : fieldF (formatNNN f nnn) = f := by
  have := nnn.isLt
  apply BitVec.eq_of_toNat_eq; rw [fieldF_toNat, formatNNN_toNat]; omega

@[simp] theorem fieldNNN_formatNNN : fieldNNN (formatNNN f nnn) = nnn := by
  have := nnn.isLt
  apply BitVec.eq_of_toNat_eq; rw [fieldNNN_toNat, formatNNN_toNat]; omega

@[simp] theorem fieldF_formatXKK : fieldF (formatXKK f x kk) = f := by
  have := kk.isLt; have := x.isLt
  apply BitVec.eq_of_toNat_eq; rw [fieldF_toNat, formatXKK_toNat]; omega

@[simp] theorem fieldX_formatXKK : fieldX (formatXKK f x kk) = x := by
  have := kk.isLt; have := x.isLt
  apply Fin.ext; rw [fieldX_val, formatXKK_toNat]; omega

@[simp] theorem fieldKK_formatXKK : fieldKK (formatXKK f x kk) = kk := by
  have := kk.isLt
  apply BitVec.eq_of_toNat_eq; rw [fieldKK_toNat, formatXKK_toNat]; omega

@[simp] theorem fieldF_formatXYN : fieldF (formatXYN f x d n) = f := by
  have := x.isLt; have := d.isLt; have := n.isLt
  apply BitVec.eq_of_toNat_eq; rw [fieldF_toNat, formatXYN_toNat]; omega

@[simp] theorem fieldX_formatXYN : fieldX (formatXYN f x d n) = x := by
  have := x.isLt; have := d.isLt; have := n.isLt
  apply Fin.ext; rw [fieldX_val, formatXYN_toNat]; omega

@[simp] theorem fieldY_formatXYN : fieldY (formatXYN f x (regDigit y) n) = y := by
  have := x.isLt; have := y.isLt; have := n.isLt
  apply Fin.ext; rw [fieldY_val, formatXYN_toNat, regDigit_toNat]; omega

@[simp] theorem fieldYDigit_formatXYN : fieldYDigit (formatXYN f x d n) = d := by
  have := x.isLt; have := d.isLt; have := n.isLt
  apply BitVec.eq_of_toNat_eq; rw [fieldYDigit_toNat, formatXYN_toNat]; omega

@[simp] theorem fieldN_formatXYN : fieldN (formatXYN f x d n) = n := by
  have := n.isLt
  apply BitVec.eq_of_toNat_eq; rw [fieldN_toNat, formatXYN_toNat]; omega

end

/-! Masks: a word is its four digits, and a mask acts digit by digit -/

/-- Two words with the same four digits are the same word (R47). -/
theorem word_ext {w u : Word} (h3 : w.extractLsb' 12 4 = u.extractLsb' 12 4) (h2 : w.extractLsb' 8 4 = u.extractLsb' 8 4)
    (h1 : w.extractLsb' 4 4 = u.extractLsb' 4 4) (h0 : w.extractLsb' 0 4 = u.extractLsb' 0 4) : w = u := by
  apply BitVec.eq_of_toNat_eq
  have h3 := congrArg BitVec.toNat h3
  have h2 := congrArg BitVec.toNat h2
  have h1 := congrArg BitVec.toNat h1
  have h0 := congrArg BitVec.toNat h0
  simp only [BitVec.extractLsb'_toNat, Nat.shiftRight_eq_div_pow] at h0 h1 h2 h3
  have := w.isLt; have := u.isLt
  omega

theorem digit_and (w m : Word) (k : Nat) : (w &&& m).extractLsb' k 4 = w.extractLsb' k 4 &&& m.extractLsb' k 4 := by
  ext i hi; simp

/-- A masked comparison, digit by digit (R46). -/
theorem and_eq_iff (w mask mtch : Word) :
    w &&& mask = mtch ↔
      w.extractLsb' 12 4 &&& mask.extractLsb' 12 4 = mtch.extractLsb' 12 4 ∧
      w.extractLsb' 8 4 &&& mask.extractLsb' 8 4 = mtch.extractLsb' 8 4 ∧
      w.extractLsb' 4 4 &&& mask.extractLsb' 4 4 = mtch.extractLsb' 4 4 ∧
      w.extractLsb' 0 4 &&& mask.extractLsb' 0 4 = mtch.extractLsb' 0 4 := by
  constructor
  · rintro rfl; simp only [digit_and, and_self]
  · rintro ⟨h3, h2, h1, h0⟩
    exact word_ext (by rw [digit_and, h3]) (by rw [digit_and, h2]) (by rw [digit_and, h1]) (by rw [digit_and, h0])

/-- A word of format `XYN` under a mask, digit by digit. -/
theorem formatXYN_and (f : Nibble) (x : RegIx) (d n : Nibble) (mask mtch : Word) :
    formatXYN f x d n &&& mask = mtch ↔
      f &&& mask.extractLsb' 12 4 = mtch.extractLsb' 12 4 ∧ regDigit x &&& mask.extractLsb' 8 4 = mtch.extractLsb' 8 4 ∧
      d &&& mask.extractLsb' 4 4 = mtch.extractLsb' 4 4 ∧ n &&& mask.extractLsb' 0 4 = mtch.extractLsb' 0 4 := by
  have h3 : (formatXYN f x d n).extractLsb' 12 4 = f := fieldF_formatXYN f x d n
  have h2 : (formatXYN f x d n).extractLsb' 8 4 = regDigit x := congrArg BitVec.ofFin (fieldX_formatXYN f x d n)
  have h1 : (formatXYN f x d n).extractLsb' 4 4 = d := fieldYDigit_formatXYN f x d n
  have h0 : (formatXYN f x d n).extractLsb' 0 4 = n := fieldN_formatXYN f x d n
  rw [and_eq_iff, h3, h2, h1, h0]

/-- `KK = {Y, N}` (R47). -/
theorem formatXKK_digits (f : Nibble) (x : RegIx) (kk : Byte) :
    formatXKK f x kk = formatXYN f x (kk.extractLsb' 4 4) (kk.extractLsb' 0 4) := by
  apply BitVec.eq_of_toNat_eq
  rw [formatXKK_toNat, formatXYN_toNat]
  have := kk.isLt
  simp [Nat.shiftRight_eq_div_pow]; omega

/-- `NNN = {X, Y, N}` (R47). -/
theorem formatNNN_digits (f : Nibble) (nnn : Addr12) :
    formatNNN f nnn = formatXYN f (nnn.extractLsb' 8 4).toFin (nnn.extractLsb' 4 4) (nnn.extractLsb' 0 4) := by
  apply BitVec.eq_of_toNat_eq
  rw [formatNNN_toNat, formatXYN_toNat]
  have := nnn.isLt
  simp [Nat.shiftRight_eq_div_pow]; omega

end Sys2Proof
end

