-- ==== Sys2Proof/Laws/Memory.lean ====
section
/-! SUPPORT. The laws of memory: a read after a write (20_memory.md rule R39), every operation keeps the canonical form,
and what a block of bytes stored or loaded at ascending addresses leaves and gives (R38). The read laws need no
premise on the form of the memory. -/

namespace Sys2Proof.Machine

/-- Taking out the cells at `a` changes the read of `a` alone. -/
theorem Memory.read_filter (m : Memory) (a b : Nat) :
    Memory.read (m.filter (fun c => c.1 != a)) b = if b = a then Memory.initial a else m.read b := by
  induction m with
  | nil => by_cases h : b = a <;> simp [Memory.read, h]
  | cons c cs ih =>
    by_cases hc : c.1 = a
    · by_cases hb : b = a
      · subst hb; simpa [hc, List.filter_cons] using ih
      · have : c.1 ≠ b := fun h => hb (h ▸ hc)
        simpa [hc, List.filter_cons, hb, Ne.symm hb, Memory.read, this] using ih
    · by_cases hb : b = a
      · subst hb; simpa [hc, List.filter_cons, Memory.read] using ih
      · simp only [ne_eq, hc, not_false_eq_true, bne_iff_ne, List.filter_cons_of_pos, Memory.read, hb, if_false] at ih ⊢
        rw [ih]

/-- A cell put in its place is what a read of its address gives, if its address was not listed. -/
theorem Memory.read_insertCell (c : Host.Cell) (m : Memory) (b : Nat) (h : ∀ d ∈ m, d.1 ≠ c.1) :
    (Memory.insertCell c m).read b = if b = c.1 then c.2 else m.read b := by
  induction m with
  | nil => by_cases hb : b = c.1 <;> simp [Memory.insertCell, Memory.read, hb, eq_comm]
  | cons d ds ih =>
    have hd : d.1 ≠ c.1 := h d (by simp)
    have ih := ih (fun e he => h e (by simp [he]))
    by_cases hlt : c.1 < d.1
    · by_cases hb : b = c.1
      · simp [Memory.insertCell, hlt, Memory.read, hb]
      · simp [Memory.insertCell, hlt, Memory.read, hb, Ne.symm hb]
    · by_cases hb : b = c.1
      · have hd' : d.1 ≠ b := hb ▸ hd
        simpa [Memory.insertCell, hlt, Memory.read, hb, hd, hd'] using ih
      · simp only [Memory.insertCell, hlt, if_false, Memory.read, ih, hb]

/-- A read after a write (R39): the byte written at its address, the byte that was there at every other. -/
theorem Memory.read_write (m : Memory) (a : Nat) (v : Byte) (b : Nat) :
    (m.write a v).read b = if b = a then v else m.read b := by
  unfold Memory.write
  split
  · next hv => rw [Memory.read_filter]; split <;> simp_all
  · rw [Memory.read_insertCell _ _ _ (by simp), Memory.read_filter]
    by_cases hb : b = a <;> simp [hb]

@[simp] theorem Memory.read_write_same (m : Memory) (a : Nat) (v : Byte) : (m.write a v).read a = v := by
  simp [Memory.read_write]

theorem Memory.read_write_other (m : Memory) {a b : Nat} (v : Byte) (h : b ≠ a) : (m.write a v).read b = m.read b := by
  simp [Memory.read_write, h]

/-- The empty list, the memory of the reset state, has the canonical form. -/
theorem Memory.wf_nil : Memory.wf [] := by simp [Memory.wf]

theorem Memory.mem_insertCell (c d : Host.Cell) (m : Memory) : d ∈ Memory.insertCell c m ↔ d = c ∨ d ∈ m := by
  induction m with
  | nil => simp [Memory.insertCell]
  | cons e es ih =>
    unfold Memory.insertCell
    split
    · simp
    · simp only [List.mem_cons, ih]; tauto

theorem Memory.pairwise_insertCell (c : Host.Cell) (m : Memory) (h : m.Pairwise (fun c d => c.1 < d.1))
    (hne : ∀ d ∈ m, d.1 ≠ c.1) : (Memory.insertCell c m).Pairwise (fun c d => c.1 < d.1) := by
  induction m with
  | nil => simp [Memory.insertCell]
  | cons e es ih =>
    rw [List.pairwise_cons] at h
    unfold Memory.insertCell
    split
    · next hlt =>
      refine List.pairwise_cons.2 ⟨fun d hd => ?_, List.pairwise_cons.2 h⟩
      rcases List.mem_cons.1 hd with rfl | hd
      · exact hlt
      · exact hlt.trans (h.1 d hd)
    · next hlt =>
      refine List.pairwise_cons.2 ⟨fun d hd => ?_, ih h.2 (fun d hd => hne d (by simp [hd]))⟩
      rcases (Memory.mem_insertCell c d es).1 hd with rfl | hd
      · have := hne e (by simp); omega
      · exact h.1 d hd

/-- A write to an address of the memory keeps the canonical form. -/
theorem Memory.wf_write (m : Memory) (a : Nat) (v : Byte) (hm : m.wf) (ha : a < Config.memSize) : (m.write a v).wf := by
  have hp : (m.filter (fun c => c.1 != a)).Pairwise (fun c d => c.1 < d.1) := hm.1.sublist List.filter_sublist
  have hall : ∀ c ∈ m.filter (fun c => c.1 != a), c.1 < Config.memSize ∧ c.2 ≠ Memory.initial c.1 :=
    fun c hc => hm.2 c (List.mem_of_mem_filter hc)
  unfold Memory.write
  split
  · exact ⟨hp, hall⟩
  · next hv =>
    refine ⟨Memory.pairwise_insertCell _ _ hp (by simp), fun c hc => ?_⟩
    rcases (Memory.mem_insertCell _ _ _).1 hc with rfl | hc
    · exact ⟨ha, hv⟩
    · exact hall c hc

/-- Two memories in canonical form that read the same everywhere are the same list. -/
theorem Memory.eq_of_read_eq {m n : Memory} (hm : m.wf) (hn : n.wf) (h : ∀ a, m.read a = n.read a) : m = n := by
  have low : ∀ (m : Memory) (a : Nat), (∀ c ∈ m, a < c.1) → m.read a = Memory.initial a := by
    intro m a
    induction m with
    | nil => intro _; rfl
    | cons c cs ih =>
      intro hc
      have h1 : c.1 ≠ a := by have := hc c (by simp); omega
      simp only [Memory.read, h1, if_false]
      exact ih (fun d hd => hc d (by simp [hd]))
  induction m generalizing n with
  | nil =>
    cases n with
    | nil => rfl
    | cons d ds =>
      have := h d.1
      simp only [Memory.read, if_true] at this
      exact absurd this.symm (hn.2 d (by simp)).2
  | cons c cs ih =>
    cases n with
    | nil =>
      have := h c.1
      simp only [Memory.read, if_true] at this
      exact absurd this (hm.2 c (by simp)).2
    | cons d ds =>
      have hm1 := List.pairwise_cons.1 hm.1
      have hn1 := List.pairwise_cons.1 hn.1
      have hcd : c.1 = d.1 := by
        rcases lt_trichotomy c.1 d.1 with hlt | heq | hlt
        · have h1 := h c.1
          have h2 : d.1 ≠ c.1 := by omega
          simp only [Memory.read, if_true, h2, if_false] at h1
          rw [low ds c.1 (fun e he => hlt.trans (hn1.1 e he))] at h1
          exact absurd h1 (hm.2 c (by simp)).2
        · exact heq
        · have h1 := h d.1
          have h2 : c.1 ≠ d.1 := by omega
          simp only [Memory.read, if_true, h2, if_false] at h1
          rw [low cs d.1 (fun e he => hlt.trans (hm1.1 e he))] at h1
          exact absurd h1.symm (hn.2 d (by simp)).2
      have hv : c.2 = d.2 := by have h1 := h c.1; simpa [Memory.read, hcd] using h1
      have heq : c = d := Prod.ext hcd hv
      subst heq
      congr 1
      refine ih ⟨hm1.2, fun e he => hm.2 e (by simp [he])⟩ ⟨hn1.2, fun e he => hn.2 e (by simp [he])⟩ (fun a => ?_)
      have h1 := h a
      by_cases ha : c.1 = a
      · subst ha; rw [low cs c.1 hm1.1, low ds c.1 hn1.1]
      · simpa [Memory.read, ha] using h1

/-! ### Blocks of bytes at ascending addresses -/

@[simp] theorem Memory.store_nil (m : Memory) (a : Nat) : m.store a [] = m := rfl

@[simp] theorem Memory.store_cons (m : Memory) (a : Nat) (b : Byte) (bs : List Byte) :
    m.store a (b :: bs) = (m.write a b).store (a + 1) bs := rfl

/-- A read after a block store: byte `k` of the block at `a + k`, and outside the block the byte that was there. -/
theorem Memory.read_store (m : Memory) (a : Nat) (bytes : List Byte) (b : Nat) :
    (m.store a bytes).read b = if a ≤ b ∧ b < a + bytes.length then bytes.getD (b - a) 0 else m.read b := by
  induction bytes generalizing m a with
  | nil => simp
  | cons v vs ih =>
    rw [Memory.store_cons, ih]
    by_cases hb : b = a
    · subst hb; simp
    · rw [Memory.read_write_other _ _ hb]
      by_cases h1 : a + 1 ≤ b ∧ b < a + 1 + vs.length
      · have h2 : a ≤ b ∧ b < a + (v :: vs).length := by simp only [List.length_cons]; omega
        rw [if_pos h1, if_pos h2]
        have : b - a = (b - (a + 1)) + 1 := by omega
        simp [this]
      · have h2 : ¬ (a ≤ b ∧ b < a + (v :: vs).length) := by simp only [List.length_cons]; omega
        rw [if_neg h1, if_neg h2]

theorem Memory.read_store_outside (m : Memory) (a : Nat) (bytes : List Byte) (b : Nat)
    (h : b < a ∨ a + bytes.length ≤ b) : (m.store a bytes).read b = m.read b := by
  rw [Memory.read_store, if_neg (by omega)]

theorem Memory.read_store_inside (m : Memory) (a : Nat) (bytes : List Byte) (k : Nat) (h : k < bytes.length) :
    (m.store a bytes).read (a + k) = bytes[k] := by
  rw [Memory.read_store, if_pos (by omega)]
  simp [List.getD, h]

/-- A block store inside the memory keeps the canonical form. -/
theorem Memory.wf_store (m : Memory) (a : Nat) (bytes : List Byte) (hm : m.wf) (h : a + bytes.length ≤ Config.memSize) :
    (m.store a bytes).wf := by
  induction bytes generalizing m a with
  | nil => exact hm
  | cons v vs ih =>
    simp only [List.length_cons] at h
    exact ih _ _ (Memory.wf_write _ _ _ hm (by omega)) (by omega)

@[simp] theorem Memory.length_load (m : Memory) (a n : Nat) : (m.load a n).length = n := by
  induction n generalizing a with
  | zero => rfl
  | succ n ih => simp [Memory.load, ih]

/-- Byte `k` of a loaded block is the byte at `a + k`. -/
theorem Memory.getElem_load (m : Memory) (a n k : Nat) (h : k < (m.load a n).length) :
    (m.load a n)[k] = m.read (a + k) := by
  induction n generalizing a k with
  | zero => simp [Memory.load] at h
  | succ n ih =>
    cases k with
    | zero => rfl
    | succ k =>
      simp only [Memory.load, List.getElem_cons_succ]
      rw [ih]; congr 1; omega

end Sys2Proof.Machine
end

