-- ==== Sys2Proof/Laws/Screen.lean ====
section
/-! SUPPORT. What drawing does, pixel by pixel (45_display.md rule R102): each drawing operation inverts exactly the
pixels it covers on the screen, and `hit` says whether one of them was on. -/

namespace Sys2Proof.Machine

@[simp] theorem FrameBuffer.pixel_clear (x y : Nat) : FrameBuffer.clear.pixel x y = false := by
  unfold FrameBuffer.pixel FrameBuffer.clear
  split <;> simp

theorem FrameBuffer.pixel_offScreen (fb : FrameBuffer) {x y : Nat} (h : ¬ (x < 64 ∧ y < 32)) :
    fb.pixel x y = false := by
  simp [FrameBuffer.pixel, h]

/-- Two framebuffers with the same pixels are the same. -/
theorem FrameBuffer.ext_pixel {fb gb : FrameBuffer} (h : ∀ x y, x < 64 → y < 32 → fb.pixel x y = gb.pixel x y) :
    fb = gb := by
  refine Vector.ext fun y hy => Vector.ext fun x hx => ?_
  simpa [FrameBuffer.pixel, hx, hy] using h x y hx hy

/-- One pixel is inverted, if it is on the screen. -/
theorem drawPixel_pixel (x y : Nat) (c : Canvas) (px py : Nat) :
    (drawPixel x y c).fb.pixel px py =
      (c.fb.pixel px py ^^ decide (px = x ∧ py = y ∧ px < 64 ∧ py < 32)) := by
  by_cases h : x < 64 ∧ y < 32
  · by_cases hp : px < 64 ∧ py < 32
    · simp only [drawPixel, h, and_self, dif_pos, FrameBuffer.pixel, hp, Vector.getElem_set]
      by_cases hy : py = y
      · subst hy
        by_cases hx : px = x
        · subst hx; simp
        · simp [hx, Ne.symm hx]
      · simp [hy, Ne.symm hy]
    · have : ¬ (px = x ∧ py = y ∧ px < 64 ∧ py < 32) := fun k => hp k.2.2
      simp [FrameBuffer.pixel_offScreen _ hp, this]
  · have : ¬ (px = x ∧ py = y ∧ px < 64 ∧ py < 32) := by rintro ⟨rfl, rfl, k⟩; exact h k
    simp [drawPixel, h, this]

/-- A pixel that was on has been turned off. -/
theorem drawPixel_hit (x y : Nat) (c : Canvas) : (drawPixel x y c).hit = (c.hit || c.fb.pixel x y) := by
  by_cases h : x < 64 ∧ y < 32 <;> simp [drawPixel, h, FrameBuffer.pixel]

/-- Some column of `cols` of a sprite row puts a 1 on screen pixel `(px, py)`. -/
def columnBit (row : Byte) (x0 y : Nat) (cols : List Nat) (px py : Nat) : Bool :=
  decide (py = y ∧ px < 64 ∧ py < 32) && cols.any (fun col => decide (px = x0 + col) && row.getLsbD (7 - col))

theorem drawColumns_pixel (row : Byte) (x0 y : Nat) (cols : List Nat) (c : Canvas) (hn : cols.Nodup) (px py : Nat) :
    (drawColumns row x0 y cols c).fb.pixel px py = (c.fb.pixel px py ^^ columnBit row x0 y cols px py) := by
  induction cols generalizing c with
  | nil => simp [drawColumns, columnBit]
  | cons col rest ih =>
    rw [List.nodup_cons] at hn
    rw [drawColumns, ih _ hn.2]
    by_cases hb : row.getLsbD (7 - col) = true
    · rw [if_pos hb, drawPixel_pixel]
      by_cases hx : px = x0 + col
      · have hrest : columnBit row x0 y rest px py = false := by
          simp only [columnBit, Bool.and_eq_false_imp, decide_eq_true_eq, List.any_eq_false, Bool.and_eq_true]
          rintro - d hd ⟨he, -⟩
          exact hn.1 ((by omega : d = col) ▸ hd)
        rw [hrest]
        simp [columnBit, hx, hb]
      · simp [columnBit, hx, hb]
    · simp [columnBit, hb]

theorem drawColumns_hit (row : Byte) (x0 y : Nat) (cols : List Nat) (c : Canvas) (hn : cols.Nodup) :
    (drawColumns row x0 y cols c).hit =
      (c.hit || cols.any (fun col => row.getLsbD (7 - col) && c.fb.pixel (x0 + col) y)) := by
  induction cols generalizing c with
  | nil => simp [drawColumns]
  | cons col rest ih =>
    rw [List.nodup_cons] at hn
    rw [drawColumns, ih _ hn.2]
    by_cases hb : row.getLsbD (7 - col) = true
    · rw [if_pos hb, drawPixel_hit]
      have : ∀ d ∈ rest, (drawPixel (x0 + col) y c).fb.pixel (x0 + d) y = c.fb.pixel (x0 + d) y := by
        intro d hd
        have hne : d ≠ col := fun h => hn.1 (h ▸ hd)
        rw [drawPixel_pixel]
        simp [hne]
      have hany : rest.any (fun d => row.getLsbD (7 - d) && (drawPixel (x0 + col) y c).fb.pixel (x0 + d) y) =
          rest.any (fun d => row.getLsbD (7 - d) && c.fb.pixel (x0 + d) y) := by
        rw [Bool.eq_iff_iff, List.any_eq_true, List.any_eq_true]
        exact ⟨fun ⟨d, hd, h⟩ => ⟨d, hd, this d hd ▸ h⟩, fun ⟨d, hd, h⟩ => ⟨d, hd, (this d hd).symm ▸ h⟩⟩
      rw [hany]
      simp [hb, Bool.or_assoc]
    · simp [hb]

/-- A sprite row with all its eight columns puts a 1 on screen pixel `(px, py)` (R100). -/
theorem columnBit_all (row : Byte) (x0 y px py : Nat) :
    columnBit row x0 y [0, 1, 2, 3, 4, 5, 6, 7] px py =
      (decide (px < 64 ∧ py < 32) && (decide (x0 ≤ px ∧ px < x0 + 8 ∧ py = y) && row.getLsbD (7 - (px - x0)))) := by
  rw [Bool.eq_iff_iff]
  simp only [columnBit, Bool.and_eq_true, decide_eq_true_eq, List.any_eq_true]
  constructor
  · rintro ⟨⟨rfl, h1, h2⟩, col, hcol, rfl, hb⟩
    have : col < 8 := by simp at hcol; omega
    exact ⟨⟨h1, h2⟩, ⟨by omega, by omega, rfl⟩, by simpa using hb⟩
  · rintro ⟨⟨h1, h2⟩, ⟨h3, h4, rfl⟩, hb⟩
    refine ⟨⟨rfl, h1, h2⟩, px - x0, ?_, by omega, hb⟩
    have : px - x0 < 8 := by omega
    simp; omega

/-- The rows `rows` of a sprite started at `(x0, y0)` have a 1 at pixel `(px, py)` (R100). -/
def rowsBit (rows : List Byte) (x0 y0 px py : Nat) : Bool :=
  decide (x0 ≤ px ∧ px < x0 + 8 ∧ y0 ≤ py ∧ py < y0 + rows.length) &&
    (rows.getD (py - y0) 0).getLsbD (7 - (px - x0))

theorem rowsBit_cons (row : Byte) (rest : List Byte) (x0 y0 px py : Nat) :
    rowsBit (row :: rest) x0 y0 px py =
      ((decide (x0 ≤ px ∧ px < x0 + 8 ∧ py = y0) && row.getLsbD (7 - (px - x0))) ||
        rowsBit rest x0 (y0 + 1) px py) := by
  by_cases hy : py = y0
  · subst hy
    have : ¬ (py + 1 ≤ py) := by omega
    simp [rowsBit, this]
  · by_cases hlt : y0 + 1 ≤ py
    · have h1 : py - y0 = (py - (y0 + 1)) + 1 := by omega
      have h2 : y0 ≤ py := by omega
      have h3 : (py < y0 + (rest.length + 1)) = (py < y0 + 1 + rest.length) := by congr 1; omega
      simp [rowsBit, hy, hlt, h1, h2, h3]
    · have h2 : ¬ y0 ≤ py := by omega
      simp [rowsBit, hy, hlt, h2]

theorem rowsBit_below (rows : List Byte) (x0 y0 px py : Nat) (h : py < y0) : rowsBit rows x0 y0 px py = false := by
  have : ¬ y0 ≤ py := by omega
  simp [rowsBit, this]

/-- DRAWING A SPRITE (R102): every screen pixel is XORed with the sprite's bit for it, and no other pixel changes. -/
theorem drawRows_pixel (rows : List Byte) (x0 y0 : Nat) (c : Canvas) (px py : Nat) (hx : px < 64) (hy : py < 32) :
    (drawRows rows x0 y0 c).fb.pixel px py = (c.fb.pixel px py ^^ rowsBit rows x0 y0 px py) := by
  induction rows generalizing y0 c with
  | nil => simp [drawRows, rowsBit]
  | cons row rest ih =>
    rw [drawRows, ih, drawColumns_pixel _ _ _ _ _ (by decide), columnBit_all, rowsBit_cons]
    by_cases h : py = y0
    · subst h; simp [hx, hy, rowsBit_below]
    · simp [h]

/-- COLLISION (R102): `hit` is set iff it was, or a screen pixel that was on has a 1 in the sprite. -/
theorem drawRows_hit (rows : List Byte) (x0 y0 : Nat) (c : Canvas) :
    (drawRows rows x0 y0 c).hit = true ↔
      c.hit = true ∨ ∃ px py, px < 64 ∧ py < 32 ∧ c.fb.pixel px py = true ∧ rowsBit rows x0 y0 px py = true := by
  induction rows generalizing y0 c with
  | nil => simp [drawRows, rowsBit]
  | cons row rest ih =>
    have onScreen : ∀ {px py : Nat}, c.fb.pixel px py = true → px < 64 ∧ py < 32 := by
      intro px py h
      by_contra k
      rw [FrameBuffer.pixel_offScreen _ k] at h
      exact absurd h (by decide)
    rw [drawRows, ih, drawColumns_hit _ _ _ _ _ (by decide)]
    constructor
    · rintro (h | ⟨px, py, hx, hy, hp, hr⟩)
      · simp only [Bool.or_eq_true, List.any_eq_true, Bool.and_eq_true] at h
        rcases h with h | ⟨col, hcol, hb, hp⟩
        · exact .inl h
        · have hc : col < 8 := by simp at hcol; omega
          refine .inr ⟨x0 + col, y0, (onScreen hp).1, (onScreen hp).2, hp, ?_⟩
          rw [rowsBit_cons]
          simp [hb, hc]
      · have hge : y0 + 1 ≤ py := by
          by_contra k
          rw [rowsBit_below _ _ _ _ _ (by omega)] at hr
          exact absurd hr (by decide)
        refine .inr ⟨px, py, hx, hy, ?_, by rw [rowsBit_cons, hr]; simp⟩
        rw [drawColumns_pixel _ _ _ _ _ (by decide), columnBit_all] at hp
        have : py ≠ y0 := by omega
        simpa [this] using hp
    · rintro (h | ⟨px, py, hx, hy, hp, hr⟩)
      · exact .inl (by simp [h])
      · rw [rowsBit_cons] at hr
        by_cases h : py = y0
        · subst h
          rw [rowsBit_below _ _ _ _ _ (by omega)] at hr
          simp only [Bool.or_false, Bool.and_eq_true, decide_eq_true_eq] at hr
          refine .inl ?_
          simp only [Bool.or_eq_true, List.any_eq_true, Bool.and_eq_true]
          refine .inr ⟨px - x0, ?_, hr.2, ?_⟩
          · have : px - x0 < 8 := by omega
            simp; omega
          · rw [show x0 + (px - x0) = px by omega]; exact hp
        · refine .inr ⟨px, py, hx, hy, ?_, by simpa [h] using hr⟩
          rw [drawColumns_pixel _ _ _ _ _ (by decide), columnBit_all]
          simpa [h] using hp

end Sys2Proof.Machine
end

