-- ==== Sys2Proof/Laws/State.lean ====
section
/-! SUPPORT. One lemma per field per named update of the state, true by definition, so that no proof unfolds a record
update; and what the readers of the state (`reg`, `slot`, `keyDown`, `byte`, `pixel`) give after an update. -/

namespace Sys2Proof.Machine

/-! `State.setReg` -/

@[simp] theorem State.setReg_v (s : State) (x : RegIx) (b : Byte) : (s.setReg x b).v = s.v.set x.val b := rfl
@[simp] theorem State.setReg_pc (s : State) (x : RegIx) (b : Byte) : (s.setReg x b).pc = s.pc := rfl
@[simp] theorem State.setReg_i (s : State) (x : RegIx) (b : Byte) : (s.setReg x b).i = s.i := rfl
@[simp] theorem State.setReg_sp (s : State) (x : RegIx) (b : Byte) : (s.setReg x b).sp = s.sp := rfl
@[simp] theorem State.setReg_stk (s : State) (x : RegIx) (b : Byte) : (s.setReg x b).stk = s.stk := rfl
@[simp] theorem State.setReg_dt (s : State) (x : RegIx) (b : Byte) : (s.setReg x b).dt = s.dt := rfl
@[simp] theorem State.setReg_st (s : State) (x : RegIx) (b : Byte) : (s.setReg x b).st = s.st := rfl
@[simp] theorem State.setReg_fb (s : State) (x : RegIx) (b : Byte) : (s.setReg x b).fb = s.fb := rfl
@[simp] theorem State.setReg_key (s : State) (x : RegIx) (b : Byte) : (s.setReg x b).key = s.key := rfl
@[simp] theorem State.setReg_mem (s : State) (x : RegIx) (b : Byte) : (s.setReg x b).mem = s.mem := rfl
@[simp] theorem State.setReg_draws (s : State) (x : RegIx) (b : Byte) : (s.setReg x b).draws = s.draws := rfl

/-! `State.setI` -/

@[simp] theorem State.setI_v (s : State) (a : Word) : (s.setI a).v = s.v := rfl
@[simp] theorem State.setI_pc (s : State) (a : Word) : (s.setI a).pc = s.pc := rfl
@[simp] theorem State.setI_i (s : State) (a : Word) : (s.setI a).i = a := rfl
@[simp] theorem State.setI_sp (s : State) (a : Word) : (s.setI a).sp = s.sp := rfl
@[simp] theorem State.setI_stk (s : State) (a : Word) : (s.setI a).stk = s.stk := rfl
@[simp] theorem State.setI_dt (s : State) (a : Word) : (s.setI a).dt = s.dt := rfl
@[simp] theorem State.setI_st (s : State) (a : Word) : (s.setI a).st = s.st := rfl
@[simp] theorem State.setI_fb (s : State) (a : Word) : (s.setI a).fb = s.fb := rfl
@[simp] theorem State.setI_key (s : State) (a : Word) : (s.setI a).key = s.key := rfl
@[simp] theorem State.setI_mem (s : State) (a : Word) : (s.setI a).mem = s.mem := rfl
@[simp] theorem State.setI_draws (s : State) (a : Word) : (s.setI a).draws = s.draws := rfl

/-! `State.setPc` -/

@[simp] theorem State.setPc_v (s : State) (a : Word) : (s.setPc a).v = s.v := rfl
@[simp] theorem State.setPc_pc (s : State) (a : Word) : (s.setPc a).pc = a := rfl
@[simp] theorem State.setPc_i (s : State) (a : Word) : (s.setPc a).i = s.i := rfl
@[simp] theorem State.setPc_sp (s : State) (a : Word) : (s.setPc a).sp = s.sp := rfl
@[simp] theorem State.setPc_stk (s : State) (a : Word) : (s.setPc a).stk = s.stk := rfl
@[simp] theorem State.setPc_dt (s : State) (a : Word) : (s.setPc a).dt = s.dt := rfl
@[simp] theorem State.setPc_st (s : State) (a : Word) : (s.setPc a).st = s.st := rfl
@[simp] theorem State.setPc_fb (s : State) (a : Word) : (s.setPc a).fb = s.fb := rfl
@[simp] theorem State.setPc_key (s : State) (a : Word) : (s.setPc a).key = s.key := rfl
@[simp] theorem State.setPc_mem (s : State) (a : Word) : (s.setPc a).mem = s.mem := rfl
@[simp] theorem State.setPc_draws (s : State) (a : Word) : (s.setPc a).draws = s.draws := rfl

/-! `State.advance` -/

@[simp] theorem State.advance_v (s : State) : (s.advance).v = s.v := rfl
@[simp] theorem State.advance_pc (s : State) : (s.advance).pc = s.pc + 2 := rfl
@[simp] theorem State.advance_i (s : State) : (s.advance).i = s.i := rfl
@[simp] theorem State.advance_sp (s : State) : (s.advance).sp = s.sp := rfl
@[simp] theorem State.advance_stk (s : State) : (s.advance).stk = s.stk := rfl
@[simp] theorem State.advance_dt (s : State) : (s.advance).dt = s.dt := rfl
@[simp] theorem State.advance_st (s : State) : (s.advance).st = s.st := rfl
@[simp] theorem State.advance_fb (s : State) : (s.advance).fb = s.fb := rfl
@[simp] theorem State.advance_key (s : State) : (s.advance).key = s.key := rfl
@[simp] theorem State.advance_mem (s : State) : (s.advance).mem = s.mem := rfl
@[simp] theorem State.advance_draws (s : State) : (s.advance).draws = s.draws := rfl

/-! `State.setDt` -/

@[simp] theorem State.setDt_v (s : State) (b : Byte) : (s.setDt b).v = s.v := rfl
@[simp] theorem State.setDt_pc (s : State) (b : Byte) : (s.setDt b).pc = s.pc := rfl
@[simp] theorem State.setDt_i (s : State) (b : Byte) : (s.setDt b).i = s.i := rfl
@[simp] theorem State.setDt_sp (s : State) (b : Byte) : (s.setDt b).sp = s.sp := rfl
@[simp] theorem State.setDt_stk (s : State) (b : Byte) : (s.setDt b).stk = s.stk := rfl
@[simp] theorem State.setDt_dt (s : State) (b : Byte) : (s.setDt b).dt = b := rfl
@[simp] theorem State.setDt_st (s : State) (b : Byte) : (s.setDt b).st = s.st := rfl
@[simp] theorem State.setDt_fb (s : State) (b : Byte) : (s.setDt b).fb = s.fb := rfl
@[simp] theorem State.setDt_key (s : State) (b : Byte) : (s.setDt b).key = s.key := rfl
@[simp] theorem State.setDt_mem (s : State) (b : Byte) : (s.setDt b).mem = s.mem := rfl
@[simp] theorem State.setDt_draws (s : State) (b : Byte) : (s.setDt b).draws = s.draws := rfl

/-! `State.setSt` -/

@[simp] theorem State.setSt_v (s : State) (b : Byte) : (s.setSt b).v = s.v := rfl
@[simp] theorem State.setSt_pc (s : State) (b : Byte) : (s.setSt b).pc = s.pc := rfl
@[simp] theorem State.setSt_i (s : State) (b : Byte) : (s.setSt b).i = s.i := rfl
@[simp] theorem State.setSt_sp (s : State) (b : Byte) : (s.setSt b).sp = s.sp := rfl
@[simp] theorem State.setSt_stk (s : State) (b : Byte) : (s.setSt b).stk = s.stk := rfl
@[simp] theorem State.setSt_dt (s : State) (b : Byte) : (s.setSt b).dt = s.dt := rfl
@[simp] theorem State.setSt_st (s : State) (b : Byte) : (s.setSt b).st = b := rfl
@[simp] theorem State.setSt_fb (s : State) (b : Byte) : (s.setSt b).fb = s.fb := rfl
@[simp] theorem State.setSt_key (s : State) (b : Byte) : (s.setSt b).key = s.key := rfl
@[simp] theorem State.setSt_mem (s : State) (b : Byte) : (s.setSt b).mem = s.mem := rfl
@[simp] theorem State.setSt_draws (s : State) (b : Byte) : (s.setSt b).draws = s.draws := rfl

/-! `State.drawn` -/

@[simp] theorem State.drawn_v (s : State) : (s.drawn).v = s.v := rfl
@[simp] theorem State.drawn_pc (s : State) : (s.drawn).pc = s.pc := rfl
@[simp] theorem State.drawn_i (s : State) : (s.drawn).i = s.i := rfl
@[simp] theorem State.drawn_sp (s : State) : (s.drawn).sp = s.sp := rfl
@[simp] theorem State.drawn_stk (s : State) : (s.drawn).stk = s.stk := rfl
@[simp] theorem State.drawn_dt (s : State) : (s.drawn).dt = s.dt := rfl
@[simp] theorem State.drawn_st (s : State) : (s.drawn).st = s.st := rfl
@[simp] theorem State.drawn_fb (s : State) : (s.drawn).fb = s.fb := rfl
@[simp] theorem State.drawn_key (s : State) : (s.drawn).key = s.key := rfl
@[simp] theorem State.drawn_mem (s : State) : (s.drawn).mem = s.mem := rfl
@[simp] theorem State.drawn_draws (s : State) : (s.drawn).draws = s.draws + 1 := rfl

/-! `State.result` -/

@[simp] theorem State.result_v (s : State) (x : RegIx) (r : Byte) : (s.result x r).v = s.v.set x.val r := rfl
@[simp] theorem State.result_pc (s : State) (x : RegIx) (r : Byte) : (s.result x r).pc = s.pc + 2 := rfl
@[simp] theorem State.result_i (s : State) (x : RegIx) (r : Byte) : (s.result x r).i = s.i := rfl
@[simp] theorem State.result_sp (s : State) (x : RegIx) (r : Byte) : (s.result x r).sp = s.sp := rfl
@[simp] theorem State.result_stk (s : State) (x : RegIx) (r : Byte) : (s.result x r).stk = s.stk := rfl
@[simp] theorem State.result_dt (s : State) (x : RegIx) (r : Byte) : (s.result x r).dt = s.dt := rfl
@[simp] theorem State.result_st (s : State) (x : RegIx) (r : Byte) : (s.result x r).st = s.st := rfl
@[simp] theorem State.result_fb (s : State) (x : RegIx) (r : Byte) : (s.result x r).fb = s.fb := rfl
@[simp] theorem State.result_key (s : State) (x : RegIx) (r : Byte) : (s.result x r).key = s.key := rfl
@[simp] theorem State.result_mem (s : State) (x : RegIx) (r : Byte) : (s.result x r).mem = s.mem := rfl
@[simp] theorem State.result_draws (s : State) (x : RegIx) (r : Byte) : (s.result x r).draws = s.draws := rfl

/-! `State.flaggedResult` -/

@[simp] theorem State.flaggedResult_v (s : State) (x : RegIx) (r f : Byte) : (s.flaggedResult x r f).v = (s.v.set x.val r).set vf.val f := rfl
@[simp] theorem State.flaggedResult_pc (s : State) (x : RegIx) (r f : Byte) : (s.flaggedResult x r f).pc = s.pc + 2 := rfl
@[simp] theorem State.flaggedResult_i (s : State) (x : RegIx) (r f : Byte) : (s.flaggedResult x r f).i = s.i := rfl
@[simp] theorem State.flaggedResult_sp (s : State) (x : RegIx) (r f : Byte) : (s.flaggedResult x r f).sp = s.sp := rfl
@[simp] theorem State.flaggedResult_stk (s : State) (x : RegIx) (r f : Byte) : (s.flaggedResult x r f).stk = s.stk := rfl
@[simp] theorem State.flaggedResult_dt (s : State) (x : RegIx) (r f : Byte) : (s.flaggedResult x r f).dt = s.dt := rfl
@[simp] theorem State.flaggedResult_st (s : State) (x : RegIx) (r f : Byte) : (s.flaggedResult x r f).st = s.st := rfl
@[simp] theorem State.flaggedResult_fb (s : State) (x : RegIx) (r f : Byte) : (s.flaggedResult x r f).fb = s.fb := rfl
@[simp] theorem State.flaggedResult_key (s : State) (x : RegIx) (r f : Byte) : (s.flaggedResult x r f).key = s.key := rfl
@[simp] theorem State.flaggedResult_mem (s : State) (x : RegIx) (r f : Byte) : (s.flaggedResult x r f).mem = s.mem := rfl
@[simp] theorem State.flaggedResult_draws (s : State) (x : RegIx) (r f : Byte) : (s.flaggedResult x r f).draws = s.draws := rfl

/-! The readers -/

theorem State.reg_setReg (s : State) (x r : RegIx) (b : Byte) :
    (s.setReg x b).reg r = if r = x then b else s.reg r := by
  simp only [State.reg, State.setReg_v, Vector.getElem_set, Fin.ext_iff, eq_comm]

@[simp] theorem State.reg_setReg_same (s : State) (x : RegIx) (b : Byte) : (s.setReg x b).reg x = b := by
  simp [State.reg_setReg]

theorem State.reg_setReg_other (s : State) {x r : RegIx} (b : Byte) (h : r ≠ x) :
    (s.setReg x b).reg r = s.reg r := by
  simp [State.reg_setReg, h]

/-- A reader of the registers sees only `v`. -/
theorem State.reg_congr {s t : State} (h : t.v = s.v) (r : RegIx) : t.reg r = s.reg r := by
  simp [State.reg, h]

@[simp] theorem State.reg_setI (s : State) (a : Word) (r : RegIx) : (s.setI a).reg r = s.reg r := rfl
@[simp] theorem State.reg_setPc (s : State) (a : Word) (r : RegIx) : (s.setPc a).reg r = s.reg r := rfl
@[simp] theorem State.reg_advance (s : State) (r : RegIx) : s.advance.reg r = s.reg r := rfl
@[simp] theorem State.reg_setDt (s : State) (b : Byte) (r : RegIx) : (s.setDt b).reg r = s.reg r := rfl
@[simp] theorem State.reg_setSt (s : State) (b : Byte) (r : RegIx) : (s.setSt b).reg r = s.reg r := rfl
@[simp] theorem State.reg_drawn (s : State) (r : RegIx) : s.drawn.reg r = s.reg r := rfl

/-- After an instruction without a flag (R72): the result is in `V[x]`, every other register is as before. -/
theorem State.reg_result (s : State) (x r : RegIx) (b : Byte) :
    (s.result x b).reg r = if r = x then b else s.reg r := by
  simp [State.result, State.reg_setReg]

/-- After an instruction with a flag (R72): the flag is in VF, whatever `x` is; the result is in `V[x]` unless `x` is
VF. -/
theorem State.reg_flaggedResult (s : State) (x r : RegIx) (b f : Byte) :
    (s.flaggedResult x b f).reg r = if r = vf then f else if r = x then b else s.reg r := by
  simp [State.flaggedResult, State.reg_setReg]

@[simp] theorem State.slot_mk_stk (s : State) (k : RegIx) : s.slot k = s.stk[k.val] := rfl
@[simp] theorem State.byte_eq (s : State) (a : Nat) : s.byte a = s.mem.read a := rfl
@[simp] theorem State.keyDown_eq (s : State) (k : RegIx) : s.keyDown k = s.key[k.val] := rfl
@[simp] theorem State.pixel_eq (s : State) (x y : Nat) : s.pixel x y = s.fb.pixel x y := rfl

/-! Skips -/

/-- `PC` after a skip (R65): +4 if the condition holds, else +2. -/
@[simp] theorem State.skipIf_pc (s : State) (c : Bool) : (s.skipIf c).pc = if c then s.pc + 4 else s.pc + 2 := by
  cases c <;> simp [State.skipIf, BitVec.add_assoc]

/-- A skip changes nothing but `PC` (R65). -/
theorem State.skipIf_eq (s : State) (c : Bool) :
    s.skipIf c = { s with pc := if c then s.pc + 4 else s.pc + 2 } := by
  cases c <;> simp [State.skipIf, State.advance, BitVec.add_assoc]

/-- Two states are equal when every field is. -/
theorem State.ext_fields {s t : State} (hv : s.v = t.v) (hpc : s.pc = t.pc) (hi : s.i = t.i) (hsp : s.sp = t.sp)
    (hstk : s.stk = t.stk) (hdt : s.dt = t.dt) (hst : s.st = t.st) (hfb : s.fb = t.fb) (hkey : s.key = t.key)
    (hmem : s.mem = t.mem) (hdraws : s.draws = t.draws) : s = t := by
  cases s; cases t; simp_all

end Sys2Proof.Machine
end

