-- ==== Sys2Proof/Laws/Ops.lean ====
section
/-! SUPPORT. One lemma per shared operation that says once everything it can do: the bounds check, the fetch, the call
stack, the key scan, the block of registers, and the flag arithmetic in natural numbers. -/

namespace Sys2Proof.Machine

/-! ### Bounds and fetch -/

theorem outOfRange_iff (base len : Nat) : outOfRange base len = true ↔ 0 < len ∧ 0x0FFF < base + len - 1 := by
  simp [outOfRange]

theorem outOfRange_false_iff (base len : Nat) : outOfRange base len = false ↔ len = 0 ∨ base + len ≤ 0x1000 := by
  rw [← Bool.not_eq_true, outOfRange_iff]; omega

/-- The bounds check (R36): in range, go on; else the fault with the first out-of-range address. -/
theorem State.checked_cases (s : State) (len : Nat) (k : Host.Outcome State Fault Refusal) :
    (outOfRange s.i.toNat len = false ∧ s.checked len k = k) ∨
    (outOfRange s.i.toNat len = true ∧
      s.checked len k = .fault (.addressError .data (firstOutOfRange s.i.toNat) s.pc)) := by
  unfold State.checked raise
  cases h : outOfRange s.i.toNat len <;> simp

theorem State.checked_inRange (s : State) {len : Nat} (k : Host.Outcome State Fault Refusal)
    (h : len = 0 ∨ s.i.toNat + len ≤ 0x1000) : s.checked len k = k := by
  simp [State.checked, (outOfRange_false_iff _ _).2 h]

theorem State.checked_outOfRange (s : State) {len : Nat} (k : Host.Outcome State Fault Refusal)
    (h0 : 0 < len) (h : 0x1000 < s.i.toNat + len) :
    s.checked len k = .fault (.addressError .data (max s.i.toNat 0x1000) s.pc) := by
  have : outOfRange s.i.toNat len = true := (outOfRange_iff _ _).2 ⟨h0, by omega⟩
  simp [State.checked, raise, this, firstOutOfRange]

/-- The fetch (R32): in range, the two bytes at `PC`, the first one high. -/
theorem fetch_inRange (s : State) (h : s.pc.toNat ≤ 0x0FFE) :
    fetch s = .ok (opcodeOfBytes (s.byte s.pc.toNat) (s.byte (s.pc.toNat + 1))) := by
  have : outOfRange s.pc.toNat 2 = false := (outOfRange_false_iff _ _).2 (by omega)
  simp [fetch, this]

theorem fetch_outOfRange (s : State) (h : 0x0FFE < s.pc.toNat) :
    fetch s = .error (.addressError .fetch (max s.pc.toNat 0x1000) s.pc) := by
  have : outOfRange s.pc.toNat 2 = true := (outOfRange_iff _ _).2 (by omega)
  simp [fetch, this, firstOutOfRange]

/-- A successful fetch was in range. -/
theorem fetch_ok_pc {s : State} {w : Word} (h : fetch s = .ok w) : s.pc.toNat ≤ 0x0FFE := by
  by_contra k
  rw [fetch_outOfRange s (by omega)] at h
  exact absurd h (by simp)

theorem fetch_cases (s : State) :
    (s.pc.toNat ≤ 0x0FFE ∧ fetch s = .ok (opcodeOfBytes (s.byte s.pc.toNat) (s.byte (s.pc.toNat + 1)))) ∨
    (0x0FFE < s.pc.toNat ∧ fetch s = .error (.addressError .fetch (max s.pc.toNat 0x1000) s.pc)) := by
  rcases Nat.lt_or_ge 0x0FFE s.pc.toNat with h | h
  · exact .inr ⟨h, fetch_outOfRange s h⟩
  · exact .inl ⟨h, fetch_inRange s h⟩

/-- The number an opcode is (R32): 256 times the byte at the lower address, plus the other. -/
theorem opcodeOfBytes_toNat (hi lo : Byte) : (opcodeOfBytes hi lo).toNat = 256 * hi.toNat + lo.toNat := by
  have := lo.isLt
  rw [opcodeOfBytes, BitVec.toNat_append, Nat.shiftLeft_eq, ← Nat.shiftLeft_eq, ← Nat.shiftLeft_add_eq_or_of_lt this,
    Nat.shiftLeft_eq]
  omega

/-! ### Call stack -/

/-- A push (R63): the slot at `SP`, then one more live slot; or all 16 are live and it overflows. -/
theorem State.push_cases (s : State) (a : Word) :
    (∃ h : s.sp.val < 16, s.push a =
      .ok { s with stk := s.stk.set s.sp.val a h, sp := ⟨s.sp.val + 1, Nat.succ_lt_succ h⟩ }) ∨
    (s.sp.val = 16 ∧ s.push a = .error (.stackOverflow s.pc)) := by
  by_cases h : s.sp.val < 16
  · exact .inl ⟨h, by simp [State.push, h]⟩
  · exact .inr ⟨by have := s.sp.isLt; omega, by simp [State.push, h]⟩

/-- A pop (R61): the most recent slot, one live slot less, no slot changed; or none is live and it underflows. -/
theorem State.pop_cases (s : State) :
    (∃ (k : RegIx) (sp' : Fin 17), k.val + 1 = s.sp.val ∧ sp'.val = k.val ∧
      s.pop = .ok (s.slot k, { s with sp := sp' })) ∨
    (s.sp.val = 0 ∧ s.pop = .error (.stackUnderflow s.pc)) := by
  by_cases h : 0 < s.sp.val
  · have hlt : s.sp.val - 1 < 16 := by have := s.sp.isLt; omega
    refine .inl ⟨⟨s.sp.val - 1, hlt⟩, ⟨s.sp.val - 1, by omega⟩, by simp; omega, rfl, ?_⟩
    simp [State.pop, h]
  · exact .inr ⟨by omega, by simp [State.pop, h]⟩

/-! ### Keys -/

theorem State.leastKeyDown_none (s : State) : s.leastKeyDown = none ↔ ∀ k, s.keyDown k = false := by
  simp only [State.leastKeyDown, List.find?_eq_none, List.mem_cons, List.not_mem_nil, or_false, Bool.not_eq_true]
  constructor
  · intro h k
    exact h k (by revert k; decide)
  · exact fun h k _ => h k

/-- The scan gives the least pressed key (R99). -/
theorem State.leastKeyDown_some (s : State) (k : RegIx) :
    s.leastKeyDown = some k ↔ s.keyDown k = true ∧ ∀ j, j < k → s.keyDown j = false := by
  have key : ∀ p : RegIx → Bool,
      List.find? p [0, 1, 2, 3, 4, 5, 6, 7, 8, 9, 10, 11, 12, 13, 14, 15] = some k ↔
        p k = true ∧ ∀ j, j < k → p j = false := by
    intro p
    rw [List.find?_eq_some_iff_getElem]
    constructor
    · rintro ⟨hk, i, hi, hik, hj⟩
      have hlen : i < 16 := by simpa using hi
      have at_ : ∀ (n : Nat) (h : n < 16),
          ([0, 1, 2, 3, 4, 5, 6, 7, 8, 9, 10, 11, 12, 13, 14, 15] : List RegIx)[n]'(by simpa using h) = ⟨n, h⟩ := by
        decide
      refine ⟨hk, fun j hjk => ?_⟩
      have hik' : k = ⟨i, hlen⟩ := by rw [← hik]; exact at_ i hlen
      have hji : j.val < i := by rw [hik'] at hjk; exact hjk
      have := hj j.val hji
      rw [at_ j.val j.isLt] at this
      simpa using this
    · rintro ⟨hk, hj⟩
      have at_ : ∀ (n : Nat) (h : n < 16),
          ([0, 1, 2, 3, 4, 5, 6, 7, 8, 9, 10, 11, 12, 13, 14, 15] : List RegIx)[n]'(by simpa using h) = ⟨n, h⟩ := by
        decide
      refine ⟨hk, k.val, by simp, at_ k.val k.isLt, fun j hjk => ?_⟩
      rw [at_ j (hjk.trans k.isLt), hj ⟨j, hjk.trans k.isLt⟩ hjk]
      rfl
  exact key s.keyDown

/-! ### The registers V0..VX as a block -/

theorem mem_regsUpTo (x r : RegIx) : r ∈ regsUpTo x ↔ r.val ≤ x.val := by
  revert x r; decide

theorem length_regsUpTo (x : RegIx) : (regsUpTo x).length = x.val + 1 := by
  revert x; decide

theorem getElem_regsUpTo (x : RegIx) (k : Nat) (h : k < (regsUpTo x).length) : ((regsUpTo x)[k]).val = k := by
  revert x k; decide

@[simp] theorem State.length_regBytes (s : State) (x : RegIx) : (s.regBytes x).length = x.val + 1 := by
  simp [State.regBytes, length_regsUpTo]

/-- Byte `r` of the block V0..VX is `V[r]` (R90). -/
theorem State.getElem_regBytes (s : State) (x r : RegIx) (h : r.val < (s.regBytes x).length) :
    (s.regBytes x)[r.val] = s.reg r := by
  have hlen : r.val < (regsUpTo x).length := by simpa [State.regBytes] using h
  have : (regsUpTo x)[r.val] = r := Fin.ext (getElem_regsUpTo x r.val hlen)
  simp [State.regBytes, this]

/-- Loading registers changes nothing but registers. -/
theorem State.loadRegList_rest (s : State) (rs : List RegIx) :
    s.loadRegList rs = { s with v := (s.loadRegList rs).v } := by
  induction rs generalizing s with
  | nil => rfl
  | cons r rs ih => rw [State.loadRegList, ih]; rfl

/-- Loading registers (R91): each named register has the byte at `I` plus its number, every other is as before. -/
theorem State.reg_loadRegList (s : State) (rs : List RegIx) (r : RegIx) :
    (s.loadRegList rs).reg r = if r ∈ rs then s.byte (s.i.toNat + r.val) else s.reg r := by
  induction rs generalizing s with
  | nil => simp [State.loadRegList]
  | cons q qs ih =>
    rw [State.loadRegList, ih]
    by_cases h : r ∈ qs
    · simp [h]
    · by_cases hq : r = q
      · subst hq; simp [h]
      · simp [h, hq, State.reg_setReg]

/-! ### Flags and arithmetic in natural numbers -/

@[simp] theorem flagByte_toNat (c : Bool) : (flagByte c).toNat = if c then 1 else 0 := by cases c <;> rfl

theorem sumByte_toNat (a b : Byte) : (sumByte a b).toNat = (a.toNat + b.toNat) % 256 := by
  simp [sumByte]

theorem differenceByte_toNat (a b : Byte) : (differenceByte a b).toNat = (a.toNat + 256 - b.toNat) % 256 := by
  simp [differenceByte]

theorem carryFlag_toNat (a b : Byte) : (carryFlag a b).toNat = if 255 < a.toNat + b.toNat then 1 else 0 := by
  simp [carryFlag]

theorem notBorrowFlag_toNat (a b : Byte) : (notBorrowFlag a b).toNat = if b.toNat ≤ a.toNat then 1 else 0 := by
  simp [notBorrowFlag]

theorem shiftedRight_toNat (a : Byte) : (shiftedRight a).toNat = a.toNat / 2 := by
  simp [shiftedRight, Nat.shiftRight_eq_div_pow]

theorem shiftedLeft_toNat (a : Byte) : (shiftedLeft a).toNat = a.toNat * 2 % 256 := by
  simp [shiftedLeft, Nat.shiftLeft_eq]

theorem rightBitFlag_toNat (a : Byte) : (rightBitFlag a).toNat = a.toNat % 2 := by
  revert a; decide

theorem leftBitFlag_toNat (a : Byte) : (leftBitFlag a).toNat = a.toNat / 128 := by
  revert a; decide

theorem addrOfNNN_toNat (nnn : Addr12) : (addrOfNNN nnn).toNat = nnn.toNat := by
  have := nnn.isLt
  simp [addrOfNNN]; omega

theorem zextByte_toNat (b : Byte) : (zextByte b).toNat = b.toNat := by
  have := b.isLt
  simp [zextByte]; omega

theorem keyIndex_val (b : Byte) : (keyIndex b).val = b.toNat % 16 := by
  simp [keyIndex]

theorem keyByte_toNat (k : RegIx) : (keyByte k).toNat = k.val := by
  have := k.isLt
  simp [keyByte]; omega

theorem glyphAddress_toNat (b : Byte) : (glyphAddress b).toNat = b.toNat * 5 := by
  have := b.isLt
  simp [glyphAddress, Config.glyphStride]; omega

end Sys2Proof.Machine
end

