-- ==== Sys2Proof/Laws/PerInstr.lean ====
section
/-! SUPPORT. The statement made of every instruction as syntax, and one lemma per constructor: the opcode the encoder
gives lies in the instruction's own row of the table (30_encoding.md rule R46). -/

namespace Sys2Proof.Laws.EncodingInRow

/-- The opcode of `i`, under the mask of `i`'s row, is the row's match word (R46). -/
def Statement (i : Instr) : Prop := encode i &&& i.maskWord = i.matchWord

theorem cls : Statement (.cls) := by
  unfold Statement; decide

theorem ret : Statement (.ret) := by
  unfold Statement; decide

theorem jp (nnn : Addr12) : Statement (.jp nnn) := by
  show formatNNN _ _ &&& _ = _
  rw [formatNNN_digits, formatXYN_and]
  simp [Instr.maskWord, Instr.matchWord]

theorem call (nnn : Addr12) : Statement (.call nnn) := by
  show formatNNN _ _ &&& _ = _
  rw [formatNNN_digits, formatXYN_and]
  simp [Instr.maskWord, Instr.matchWord]

theorem seImm (x : RegIx) (kk : Byte) : Statement (.seImm x kk) := by
  show formatXKK _ _ _ &&& _ = _
  rw [formatXKK_digits, formatXYN_and]
  simp [Instr.maskWord, Instr.matchWord]

theorem sneImm (x : RegIx) (kk : Byte) : Statement (.sneImm x kk) := by
  show formatXKK _ _ _ &&& _ = _
  rw [formatXKK_digits, formatXYN_and]
  simp [Instr.maskWord, Instr.matchWord]

theorem seReg (x y : RegIx) (ignored : Nibble) : Statement (.seReg x y ignored) := by
  show formatXYN _ _ _ _ &&& _ = _
  rw [formatXYN_and]
  simp [Instr.maskWord, Instr.matchWord]

theorem ldImm (x : RegIx) (kk : Byte) : Statement (.ldImm x kk) := by
  show formatXKK _ _ _ &&& _ = _
  rw [formatXKK_digits, formatXYN_and]
  simp [Instr.maskWord, Instr.matchWord]

theorem addImm (x : RegIx) (kk : Byte) : Statement (.addImm x kk) := by
  show formatXKK _ _ _ &&& _ = _
  rw [formatXKK_digits, formatXYN_and]
  simp [Instr.maskWord, Instr.matchWord]

theorem ldReg (x y : RegIx) : Statement (.ldReg x y) := by
  show formatXYN _ _ _ _ &&& _ = _
  rw [formatXYN_and]
  simp [Instr.maskWord, Instr.matchWord]

theorem orReg (x y : RegIx) : Statement (.orReg x y) := by
  show formatXYN _ _ _ _ &&& _ = _
  rw [formatXYN_and]
  simp [Instr.maskWord, Instr.matchWord]

theorem andReg (x y : RegIx) : Statement (.andReg x y) := by
  show formatXYN _ _ _ _ &&& _ = _
  rw [formatXYN_and]
  simp [Instr.maskWord, Instr.matchWord]

theorem xorReg (x y : RegIx) : Statement (.xorReg x y) := by
  show formatXYN _ _ _ _ &&& _ = _
  rw [formatXYN_and]
  simp [Instr.maskWord, Instr.matchWord]

theorem addReg (x y : RegIx) : Statement (.addReg x y) := by
  show formatXYN _ _ _ _ &&& _ = _
  rw [formatXYN_and]
  simp [Instr.maskWord, Instr.matchWord]

theorem subReg (x y : RegIx) : Statement (.subReg x y) := by
  show formatXYN _ _ _ _ &&& _ = _
  rw [formatXYN_and]
  simp [Instr.maskWord, Instr.matchWord]

theorem shr (x : RegIx) (ignored : Nibble) : Statement (.shr x ignored) := by
  show formatXYN _ _ _ _ &&& _ = _
  rw [formatXYN_and]
  simp [Instr.maskWord, Instr.matchWord]

theorem subnReg (x y : RegIx) : Statement (.subnReg x y) := by
  show formatXYN _ _ _ _ &&& _ = _
  rw [formatXYN_and]
  simp [Instr.maskWord, Instr.matchWord]

theorem shl (x : RegIx) (ignored : Nibble) : Statement (.shl x ignored) := by
  show formatXYN _ _ _ _ &&& _ = _
  rw [formatXYN_and]
  simp [Instr.maskWord, Instr.matchWord]

theorem sneReg (x y : RegIx) (ignored : Nibble) : Statement (.sneReg x y ignored) := by
  show formatXYN _ _ _ _ &&& _ = _
  rw [formatXYN_and]
  simp [Instr.maskWord, Instr.matchWord]

theorem ldI (nnn : Addr12) : Statement (.ldI nnn) := by
  show formatNNN _ _ &&& _ = _
  rw [formatNNN_digits, formatXYN_and]
  simp [Instr.maskWord, Instr.matchWord]

theorem jpV0 (nnn : Addr12) : Statement (.jpV0 nnn) := by
  show formatNNN _ _ &&& _ = _
  rw [formatNNN_digits, formatXYN_and]
  simp [Instr.maskWord, Instr.matchWord]

theorem rnd (x : RegIx) (kk : Byte) : Statement (.rnd x kk) := by
  show formatXKK _ _ _ &&& _ = _
  rw [formatXKK_digits, formatXYN_and]
  simp [Instr.maskWord, Instr.matchWord]

theorem drw (x y : RegIx) (n : Nibble) : Statement (.drw x y n) := by
  show formatXYN _ _ _ _ &&& _ = _
  rw [formatXYN_and]
  simp [Instr.maskWord, Instr.matchWord]

theorem skp (x : RegIx) : Statement (.skp x) := by
  show formatXKK _ _ _ &&& _ = _
  rw [formatXKK_digits, formatXYN_and]
  simp [Instr.maskWord, Instr.matchWord]

theorem sknp (x : RegIx) : Statement (.sknp x) := by
  show formatXKK _ _ _ &&& _ = _
  rw [formatXKK_digits, formatXYN_and]
  simp [Instr.maskWord, Instr.matchWord]

theorem ldVxDt (x : RegIx) : Statement (.ldVxDt x) := by
  show formatXKK _ _ _ &&& _ = _
  rw [formatXKK_digits, formatXYN_and]
  simp [Instr.maskWord, Instr.matchWord]

theorem ldVxK (x : RegIx) : Statement (.ldVxK x) := by
  show formatXKK _ _ _ &&& _ = _
  rw [formatXKK_digits, formatXYN_and]
  simp [Instr.maskWord, Instr.matchWord]

theorem ldDtVx (x : RegIx) : Statement (.ldDtVx x) := by
  show formatXKK _ _ _ &&& _ = _
  rw [formatXKK_digits, formatXYN_and]
  simp [Instr.maskWord, Instr.matchWord]

theorem ldStVx (x : RegIx) : Statement (.ldStVx x) := by
  show formatXKK _ _ _ &&& _ = _
  rw [formatXKK_digits, formatXYN_and]
  simp [Instr.maskWord, Instr.matchWord]

theorem addI (x : RegIx) : Statement (.addI x) := by
  show formatXKK _ _ _ &&& _ = _
  rw [formatXKK_digits, formatXYN_and]
  simp [Instr.maskWord, Instr.matchWord]

theorem ldF (x : RegIx) : Statement (.ldF x) := by
  show formatXKK _ _ _ &&& _ = _
  rw [formatXKK_digits, formatXYN_and]
  simp [Instr.maskWord, Instr.matchWord]

theorem ldB (x : RegIx) : Statement (.ldB x) := by
  show formatXKK _ _ _ &&& _ = _
  rw [formatXKK_digits, formatXYN_and]
  simp [Instr.maskWord, Instr.matchWord]

theorem storeRegs (x : RegIx) : Statement (.storeRegs x) := by
  show formatXKK _ _ _ &&& _ = _
  rw [formatXKK_digits, formatXYN_and]
  simp [Instr.maskWord, Instr.matchWord]

theorem loadRegs (x : RegIx) : Statement (.loadRegs x) := by
  show formatXKK _ _ _ &&& _ = _
  rw [formatXKK_digits, formatXYN_and]
  simp [Instr.maskWord, Instr.matchWord]

end Sys2Proof.Laws.EncodingInRow
end

