-- ==== Sys2Proof/Laws/Step.lean ====
section
/-! SUPPORT. Everything one step can do (30_encoding.md rule R55), the state of memory, screen and registers after each
shared end of an instruction, and what placing an opcode leaves. -/

namespace Sys2Proof.Machine

/-- A step faults in the fetch, or passes over an invalid opcode, or is the decoded instruction. -/
theorem step_cases (s : State) :
    (0x0FFE < s.pc.toNat ∧ step s = .fault (.addressError .fetch (max s.pc.toNat 0x1000) s.pc)) ∨
    (∃ w r, s.pc.toNat ≤ 0x0FFE ∧ fetch s = .ok w ∧ decodeWord w = .error r ∧ step s = .next s.advance) ∨
    (∃ w i, s.pc.toNat ≤ 0x0FFE ∧ fetch s = .ok w ∧ decodeWord w = .ok i ∧ step s = exec i s) := by
  rcases fetch_cases s with ⟨h, hf⟩ | ⟨h, hf⟩
  · cases hd : decodeWord (opcodeOfBytes (s.byte s.pc.toNat) (s.byte (s.pc.toNat + 1))) with
    | error r => exact .inr (.inl ⟨_, r, h, hf, hd, by simp only [step, hf, hd, invalidOpcode]⟩)
    | ok i => exact .inr (.inr ⟨_, i, h, hf, hd, by simp only [step, hf, hd]⟩)
  · exact .inl ⟨h, by simp only [step, hf, raise]⟩

/-- The store of FX33 and FX55 (R36): in range, the block is stored and `PC` goes on. -/
theorem State.storeAtI_inRange (s : State) (bytes : List Byte) (h : s.i.toNat + bytes.length ≤ 0x1000) :
    s.storeAtI bytes = .next ({ s with mem := s.mem.store s.i.toNat bytes } : State).advance :=
  s.checked_inRange _ (.inr h)

/-- The store of FX33 and FX55 (R36): out of range, nothing is stored. -/
theorem State.storeAtI_outOfRange (s : State) (bytes : List Byte) (h0 : 0 < bytes.length)
    (h : 0x1000 < s.i.toNat + bytes.length) :
    s.storeAtI bytes = .fault (.addressError .data (max s.i.toNat 0x1000) s.pc) :=
  s.checked_outOfRange _ h0 h

/-- The opcode that was placed is the one that is fetched. -/
theorem fetch_placeOpcode (s : State) (w : Word) : fetch (s.placeOpcode w) = .ok w := by
  have hp : ((s.placeOpcode w).pc).toNat ≤ 0x0FFE := by
    unfold State.placeOpcode
    cases h : outOfRange s.pc.toNat 2
    · have := (outOfRange_false_iff _ _).1 h
      simp; omega
    · simp
  rw [fetch_inRange _ hp]
  have hm : (s.placeOpcode w).mem = s.mem.store (s.placeOpcode w).pc.toNat [opcodeHigh w, opcodeLow w] := rfl
  have h1 : (s.placeOpcode w).byte (s.placeOpcode w).pc.toNat = opcodeHigh w := by
    rw [State.byte_eq, hm, Memory.read_store]; simp
  have h2 : (s.placeOpcode w).byte ((s.placeOpcode w).pc.toNat + 1) = opcodeLow w := by
    rw [State.byte_eq, hm, Memory.read_store]; simp
  rw [h1, h2]
  congr 1
  apply BitVec.eq_of_toNat_eq
  have := w.isLt
  rw [opcodeOfBytes_toNat]
  simp [opcodeHigh, opcodeLow, Nat.shiftRight_eq_div_pow]; omega

/-- `step` runs exactly the instruction that `withFetchWord` placed. -/
theorem step_withFetchWord (s : State) (w : Nat) (i : Instr)
    (h : decodeWord (BitVec.ofNat 16 (w % 2 ^ 16)) = .ok i) :
    step (s.withFetchWord 16 w) = exec i (s.withFetchWord 16 w) := by
  unfold State.withFetchWord
  simp only [step, fetch_placeOpcode, h]

end Sys2Proof.Machine
end

