-- ==== Sys2Proof/Tests/Slice0.lean ====
section
/-! SUPPORT. Tests of the model: the canonical-form check, the decoding of every instruction from a word written out from
30_encoding.md, one step of each instruction, and witnesses that the hypotheses of the statements can be met. Expected
results are those of 95_test_vectors.md (S: its part 1, T: its part 2) or of the example of the rule named. -/

namespace Sys2Proof.Tests

open Sys2Proof Sys2Proof.Machine

-- The theorems below are checked one after the other: each kernel evaluation would otherwise hold a thread of its own.
set_option Elab.async false

/-! ### Helpers -/

/-- The reset state with some registers set. -/
def regs (l : List (RegIx × Byte)) : State := l.foldl (fun s p => s.setReg p.1 p.2) State.reset

/-- The state with bytes in memory from an address. -/
def poke (a : Nat) (bytes : List Byte) (s : State) : State := { s with mem := s.mem.store a bytes }

/-- The state with some pixels of a blank screen on. -/
def lit (ps : List (Nat × Nat)) (s : State) : State :=
  { s with fb := (ps.foldl (fun c p => drawPixel p.1 p.2 c) { fb := FrameBuffer.clear, hit := false }).fb }

/-- The state after one step with an opcode at the program counter; after a fault, the state before. -/
def after (w : Word) (s : State) : State := stateAfterStep (s.placeOpcode w)

/-- The outcome of that step. -/
def report (w : Word) (s : State) : StepReport := stepReport (s.placeOpcode w)

/-- The bytes at addresses from `a`. -/
def peek (a n : Nat) (s : State) : List Byte := s.mem.load a n

/-- The pixels that are on, as coordinates, among those of a list of rows. -/
def onPixels (rows : List Nat) (s : State) : List (Nat × Nat) :=
  rows.flatMap (fun y => (List.range 64).filterMap (fun x => if s.pixel x y then some (x, y) else none))

/-- A state with its stack pointer, its first slots and its program counter set. -/
def stacked (sp : Fin 17) (slots : Vector Word 16) (pc : Word) : State :=
  { State.reset with sp := sp, stk := slots, pc := pc }

/-! ### The canonical form -/

/-- The check refuses each of the four rows with an ignored digit that is not 0 (R56, R58). -/
theorem test_wellFormed_refuses :
    (Instr.seReg 1 2 1).wellFormed = false ∧ (Instr.sneReg 1 2 0xF).wellFormed = false ∧
      (Instr.shr 0 1).wellFormed = false ∧ (Instr.shl 0 8).wellFormed = false := by decide

/-- The check accepts the canonical forms (R58), and every digit of an instruction that uses it. -/
theorem test_wellFormed_accepts :
    (Instr.seReg 1 2 0).wellFormed = true ∧ (Instr.sneReg 1 2 0).wellFormed = true ∧ (Instr.shr 0 0).wellFormed = true ∧
      (Instr.shl 0 0).wellFormed = true ∧ (Instr.drw 0 1 0xF).wellFormed = true := by decide

/-! ### Decoding: words written out digit by digit from the patterns of R46 -/

theorem test_decode_display_and_return :
    decodeWord 0x00E0 = .ok .cls ∧ decodeWord 0x00EE = .ok .ret ∧ decodeWord 0xDAB7 = .ok (.drw 0xA 0xB 7) := by decide

theorem test_decode_jumps :
    decodeWord 0x1ABC = .ok (.jp 0xABC) ∧ decodeWord 0x2DEF = .ok (.call 0xDEF) ∧
      decodeWord 0xB123 = .ok (.jpV0 0x123) := by decide

theorem test_decode_skips :
    decodeWord 0x332A = .ok (.seImm 3 0x2A) ∧ decodeWord 0x4F01 = .ok (.sneImm 0xF 0x01) ∧
      decodeWord 0x512E = .ok (.seReg 1 2 0xE) ∧ decodeWord 0x9120 = .ok (.sneReg 1 2 0) ∧
      decodeWord 0xE49E = .ok (.skp 4) ∧ decodeWord 0xE5A1 = .ok (.sknp 5) := by decide

theorem test_decode_register_immediate :
    decodeWord 0x6A42 = .ok (.ldImm 0xA 0x42) ∧ decodeWord 0x7220 = .ok (.addImm 2 0x20) ∧
      decodeWord 0xC30F = .ok (.rnd 3 0x0F) := by decide

theorem test_decode_family8 :
    decodeWord 0x8120 = .ok (.ldReg 1 2) ∧ decodeWord 0x8341 = .ok (.orReg 3 4) ∧ decodeWord 0x8562 = .ok (.andReg 5 6) ∧
      decodeWord 0x8783 = .ok (.xorReg 7 8) ∧ decodeWord 0x89A4 = .ok (.addReg 9 0xA) ∧
      decodeWord 0x8BC5 = .ok (.subReg 0xB 0xC) ∧ decodeWord 0x8D16 = .ok (.shr 0xD 1) ∧
      decodeWord 0x8EF7 = .ok (.subnReg 0xE 0xF) ∧ decodeWord 0x820E = .ok (.shl 2 0) := by decide

theorem test_decode_index_and_memory :
    decodeWord 0xA2F0 = .ok (.ldI 0x2F0) ∧ decodeWord 0xF21E = .ok (.addI 2) ∧ decodeWord 0xF029 = .ok (.ldF 0) ∧
      decodeWord 0xF533 = .ok (.ldB 5) ∧ decodeWord 0xF255 = .ok (.storeRegs 2) ∧
      decodeWord 0xFE65 = .ok (.loadRegs 0xE) := by decide

theorem test_decode_timers_and_keys :
    decodeWord 0xF407 = .ok (.ldVxDt 4) ∧ decodeWord 0xF30A = .ok (.ldVxK 3) ∧ decodeWord 0xF615 = .ok (.ldDtVx 6) ∧
      decodeWord 0xF718 = .ok (.ldStVx 7) := by decide

/-- T7 3 to 8: words of families 0, 8, E and F that are no instruction, each refused by name. -/
theorem test_decode_refuses :
    decodeWord 0x0000 = .error (.family0 0x0000) ∧ decodeWord 0x0FEE = .error (.family0 0x0FEE) ∧
      decodeWord 0x01E0 = .error (.family0 0x01E0) ∧ decodeWord 0x8018 = .error (.family8 0x8018) ∧
      decodeWord 0x801F = .error (.family8 0x801F) ∧ decodeWord 0xE1A2 = .error (.familyE 0xE1A2) ∧
      decodeWord 0xF075 = .error (.familyF 0xF075) ∧ decode [0x12] = .error .tooShort := by decide

/-- R45: two bytes, the first one high, and the rest is left. -/
theorem test_decode_bytes : decode [0x12, 0x34, 0x56] = .ok (.jp 0x234, [0x56]) := by decide

/-! ### Reset (S1) -/

theorem test_reset_font :
    peek 0 10 State.reset = [0xF0, 0x90, 0x90, 0x90, 0xF0, 0x20, 0x60, 0x20, 0x20, 0x70] ∧
      peek 0x4B 6 State.reset = [0xF0, 0x80, 0xF0, 0x80, 0x80, 0x00] := by decide +kernel

/-- R130: a reset erases a program, whatever ran. -/
theorem test_reset_erases :
    ((perform .reset (poke 0x200 [0x12, 0x34] (regs [(3, 7)]))).2.byte 0x200 = 0) ∧
      (perform .reset (poke 0x000 [0x12] (regs [(3, 7)]))).2.byte 0 = 0xF0 := by decide +kernel

/-! ### Control transfer (T1) -/

/-- T1 1, T1 3. -/
theorem test_jp : (after 0x1234 State.reset).pc = 0x0234 ∧ (after 0x1201 State.reset).pc = 0x0201 := by decide +kernel

/-- T1 12, T1 13: no 12-bit mask. -/
theorem test_jpV0 :
    (after 0xB300 (regs [(0, 0x04)])).pc = 0x0304 ∧ (after 0xBFFF (regs [(0, 0xFF)])).pc = 0x10FE := by decide +kernel

/-- T1 7: the last slot. -/
theorem test_call_last_slot :
    (after 0x2400 (stacked 15 State.reset.stk 0x200)).slot 15 = 0x0200 ∧
      (after 0x2400 (stacked 15 State.reset.stk 0x200)).sp = 16 ∧
      (after 0x2400 (stacked 15 State.reset.stk 0x200)).pc = 0x0400 := by decide +kernel

/-- T1 8. -/
theorem test_call_overflow :
    report 0x2400 (stacked 16 State.reset.stk 0x200) =
      { status := .fault, cause := 2, info := .fault (.stackOverflow 0x200) } := by decide +kernel

/-- T1 9, T1 11. -/
theorem test_ret :
    (after 0x00EE (stacked 1 (State.reset.stk.set 0 0x0200) 0x400)).pc = 0x0202 ∧
      (after 0x00EE (stacked 1 (State.reset.stk.set 0 0x0200) 0x400)).slot 0 = 0x0200 ∧
      (after 0x00EE (stacked 1 (State.reset.stk.set 0 0xFFFE) 0x400)).pc = 0x0000 := by decide +kernel

/-- T1 10. -/
theorem test_ret_underflow :
    report 0x00EE (stacked 0 State.reset.stk 0x400) =
      { status := .fault, cause := 3, info := .fault (.stackUnderflow 0x400) } := by decide +kernel

/-! ### Skips (T2) -/

/-- T2 1, T2 2. -/
theorem test_seImm :
    (after 0x3A42 (regs [(0xA, 0x42)])).pc = 0x0204 ∧ (after 0x3A42 (regs [(0xA, 0x43)])).pc = 0x0202 := by decide +kernel

/-- T2 3, T2 4. -/
theorem test_sneImm :
    (after 0x4A42 (regs [(0xA, 0x42)])).pc = 0x0202 ∧ (after 0x4A42 (regs [(0xA, 0x43)])).pc = 0x0204 := by decide +kernel

/-- T2 7 (low digit 1), T2 6. -/
theorem test_seReg :
    (after 0x5121 (regs [(1, 7), (2, 7)])).pc = 0x0204 ∧ (after 0x5120 (regs [(1, 7), (2, 8)])).pc = 0x0202 := by
  decide +kernel

/-- T2 11 (low digit F), T2 12. -/
theorem test_sneReg :
    (after 0x912F (regs [(1, 7), (2, 8)])).pc = 0x0204 ∧ (after 0x9330 (regs [(3, 7)])).pc = 0x0202 := by decide +kernel

/-- T2 15: the key is the low four bits; T2 14. -/
theorem test_skp :
    (after 0xE49E (setKey 0xA true (regs [(4, 0x1A)]))).pc = 0x0204 ∧ (after 0xE49E (regs [(4, 0x0A)])).pc = 0x0202 := by
  decide +kernel

/-- T2 16; R71. -/
theorem test_sknp :
    (after 0xE4A1 (setKey 0xA true (regs [(4, 0x0A)]))).pc = 0x0202 ∧ (after 0xE4A1 (regs [(4, 0x05)])).pc = 0x0204 := by
  decide +kernel

/-! ### Register load and arithmetic (T3 and the examples of R74 to R84) -/

/-- R74. -/
theorem test_ldImm : (after 0x6A42 State.reset).reg 0xA = 0x42 ∧ (after 0x6A42 State.reset).pc = 0x0202 := by
  decide +kernel

/-- R75: the carry is discarded. -/
theorem test_addImm :
    (after 0x7220 (regs [(2, 0xF0), (0xF, 9)])).reg 2 = 0x10 ∧
      (after 0x7220 (regs [(2, 0xF0), (0xF, 9)])).reg 0xF = 9 := by decide +kernel

/-- R76. -/
theorem test_ldReg : (after 0x8010 (regs [(1, 0x33)])).reg 0 = 0x33 := by decide +kernel

/-- R77; VF stays (decision D13). -/
theorem test_orReg :
    (after 0x8011 (regs [(0, 0x0F), (1, 0xF0), (0xF, 9)])).reg 0 = 0xFF ∧
      (after 0x8011 (regs [(0, 0x0F), (1, 0xF0), (0xF, 9)])).reg 0xF = 9 := by decide +kernel

/-- R78. -/
theorem test_andReg : (after 0x8012 (regs [(0, 0x3C), (1, 0x0F)])).reg 0 = 0x0C := by decide +kernel

/-- R79. -/
theorem test_xorReg : (after 0x8013 (regs [(0, 0xFF), (1, 0x0F)])).reg 0 = 0xF0 := by decide +kernel

/-- S3. -/
theorem test_addReg :
    (after 0x8014 (regs [(0, 0xFF), (1, 0xFF)])).reg 0 = 0xFE ∧
      (after 0x8014 (regs [(0, 0xFF), (1, 0xFF)])).reg 0xF = 1 := by decide +kernel

/-- T3 17, T3 20: VF as destination ends as the flag, VF as source is read before. -/
theorem test_addReg_vf :
    (after 0x8F14 (regs [(0xF, 0xF0), (1, 0x20)])).reg 0xF = 1 ∧
      (after 0x81F4 (regs [(1, 0xFF), (0xF, 5)])).reg 1 = 4 ∧
      (after 0x81F4 (regs [(1, 0xFF), (0xF, 5)])).reg 0xF = 1 := by decide +kernel

/-- S4. -/
theorem test_subReg :
    (after 0x8015 (regs [(0, 1), (1, 2)])).reg 0 = 0xFF ∧ (after 0x8015 (regs [(0, 1), (1, 2)])).reg 0xF = 0 := by
  decide +kernel

/-- T3 23 (equal operands), T3 28. -/
theorem test_subReg_flag :
    (after 0x8015 (regs [(0, 5), (1, 5)])).reg 0xF = 1 ∧ (after 0x8F15 (regs [(0xF, 1), (1, 3)])).reg 0xF = 0 := by
  decide +kernel

/-- T3 37: Y is not read. -/
theorem test_shr :
    (after 0x8016 (regs [(0, 4), (1, 0xFF)])).reg 0 = 2 ∧ (after 0x8016 (regs [(0, 4), (1, 0xFF)])).reg 0xF = 0 := by
  decide +kernel

/-- T3 36, T3 38. -/
theorem test_shr_flag :
    (after 0x8016 (regs [(0, 0xFF)])).reg 0 = 0x7F ∧ (after 0x8016 (regs [(0, 0xFF)])).reg 0xF = 1 ∧
      (after 0x8F06 (regs [(0xF, 3)])).reg 0xF = 1 := by decide +kernel

/-- T3 29. -/
theorem test_subnReg :
    (after 0x8017 (regs [(0, 2), (1, 1)])).reg 0 = 0xFF ∧ (after 0x8017 (regs [(0, 2), (1, 1)])).reg 0xF = 0 := by
  decide +kernel

/-- T3 30, T3 31. -/
theorem test_subnReg_flag :
    (after 0x8017 (regs [(0, 1), (1, 2)])).reg 0xF = 1 ∧ (after 0x8017 (regs [(0, 9), (1, 9)])).reg 0xF = 1 := by
  decide +kernel

/-- T3 40. -/
theorem test_shl :
    (after 0x801E (regs [(0, 0x81)])).reg 0 = 2 ∧ (after 0x801E (regs [(0, 0x81)])).reg 0xF = 1 := by decide +kernel

/-- T3 41, T3 45. -/
theorem test_shl_flag :
    (after 0x801E (regs [(0, 0x40), (0xF, 7)])).reg 0xF = 0 ∧ (after 0x8F0E (regs [(0xF, 0x41)])).reg 0xF = 0 := by
  decide +kernel

/-! ### Index register and memory (T4) -/

/-- T4 2. -/
theorem test_ldI : (after 0xAFFF State.reset).i = 0x0FFF ∧ (after 0xAFFF State.reset).pc = 0x0202 := by decide +kernel

/-- T4 4, T4 5: no flag, no 12-bit mask, a wrap at 16 bits. -/
theorem test_addI :
    (after 0xF01E { regs [(0, 1), (0xF, 7)] with i := 0x0FFF }).i = 0x1000 ∧
      (after 0xF01E { regs [(0, 1), (0xF, 7)] with i := 0x0FFF }).reg 0xF = 7 ∧
      (after 0xF01E { regs [(0, 2)] with i := 0xFFFF }).i = 0x0001 := by decide +kernel

/-- T4 8, T4 10: the whole byte is multiplied. -/
theorem test_ldF : (after 0xF029 (regs [(0, 0x0F)])).i = 0x004B ∧ (after 0xF029 (regs [(0, 0xFF)])).i = 0x04FB := by
  decide +kernel

/-- T4 14, T4 16. -/
theorem test_ldB :
    peek 0x300 3 (after 0xF033 { regs [(0, 0xEA)] with i := 0x300 }) = [2, 3, 4] ∧
      peek 0xFFD 3 (after 0xF033 { regs [(0, 0xFF)] with i := 0xFFD }) = [2, 5, 5] := by decide +kernel

/-- T4 17, T4 18. -/
theorem test_ldB_outOfRange :
    report 0xF033 { regs [(0, 0xFF)] with i := 0xFFE } =
      { status := .fault, cause := 4, info := .fault (.addressError .data 0x1000 0x200) } ∧
    report 0xF033 { regs [(0, 0xFF)] with i := 0x1234 } =
      { status := .fault, cause := 4, info := .fault (.addressError .data 0x1234 0x200) } := by decide +kernel

/-- T4 19. -/
theorem test_storeRegs :
    peek 0x400 4 (after 0xF255 { regs [(0, 0x11), (1, 0x22), (2, 0x33), (3, 0x44)] with i := 0x400 }) =
      [0x11, 0x22, 0x33, 0x00] ∧
    (after 0xF255 { regs [(0, 0x11), (1, 0x22), (2, 0x33)] with i := 0x400 }).i = 0x400 := by decide +kernel

/-- T4 22: no partial store. -/
theorem test_storeRegs_outOfRange :
    peek 0xFF1 2 (after 0xFF55 { regs [(0, 0xA0), (1, 0xA1)] with i := 0xFF1 }) = [0, 0] ∧
    (report 0xFF55 { regs [(0, 0xA0), (1, 0xA1)] with i := 0xFF1 }).info =
      .fault (.addressError .data 0x1000 0x200) := by decide +kernel

/-- T4 23. -/
theorem test_loadRegs :
    (after 0xF265 { poke 0x400 [0x11, 0x22, 0x33, 0x44] (regs [(3, 0x77)]) with i := 0x400 }).reg 2 = 0x33 ∧
      (after 0xF265 { poke 0x400 [0x11, 0x22, 0x33, 0x44] (regs [(3, 0x77)]) with i := 0x400 }).reg 3 = 0x77 := by
  decide +kernel

/-- T4 24: the last register comes from the font byte at 0x00F. -/
theorem test_loadRegs_font :
    (after 0xFF65 State.reset).reg 0 = 0xF0 ∧ (after 0xFF65 State.reset).reg 5 = 0x20 ∧
      (after 0xFF65 State.reset).reg 0xF = 0xF0 := by decide +kernel

/-! ### Random number, timers, keys (T5) -/

/-- T5 4: with `KK = FF` the result is the random byte itself. -/
theorem test_rnd_all : (after 0xC3FF State.reset).reg 3 = Config.rand 0 :=
  (show (after 0xC3FF State.reset).reg 3 = Config.rand 0 &&& 0xFF from rfl).trans BitVec.and_allOnes

/-- T5 3: with `KK = 00` the result is 0, whatever the random byte. -/
theorem test_rnd_none : (after 0xC300 (regs [(3, 0x55)])).reg 3 = 0 :=
  (show (after 0xC300 (regs [(3, 0x55)])).reg 3 = Config.rand 0 &&& 0 from rfl).trans BitVec.and_zero

/-- T5 6. -/
theorem test_ldVxDt : (after 0xF407 { State.reset with dt := 0x3C }).reg 4 = 0x3C := by decide +kernel

/-- T5 7. -/
theorem test_ldDtVx : (after 0xF415 (regs [(4, 0x3C)])).dt = 0x3C ∧ (after 0xF415 (regs [(4, 0x3C)])).st = 0 := by
  decide +kernel

/-- T5 8. -/
theorem test_ldStVx : (after 0xF418 (regs [(4, 0x05)])).st = 5 ∧ (after 0xF418 (regs [(4, 0x05)])).dt = 0 := by
  decide +kernel

/-- T5 12. -/
theorem test_ldVxK_waits :
    (after 0xF30A (regs [(3, 0x55)])).pc = 0x0200 ∧ (after 0xF30A (regs [(3, 0x55)])).reg 3 = 0x55 ∧
      (report 0xF30A (regs [(3, 0x55)])).status = .waitKey := by decide +kernel

/-- T5 14: the lowest of several keys. -/
theorem test_ldVxK_least :
    (after 0xF30A (setKey 0xC true (setKey 9 true (setKey 3 true State.reset)))).reg 3 = 3 ∧
      (after 0xF30A (setKey 0xC true (setKey 9 true (setKey 3 true State.reset)))).pc = 0x0202 := by decide +kernel

/-! ### Display (T6) -/

/-- T6 1. -/
theorem test_cls :
    onPixels [0, 1, 31] (after 0x00E0 (lit [(0, 0), (36, 1), (63, 31)] (regs [(0xF, 7)]))) = [] ∧
      (after 0x00E0 (lit [(0, 0), (36, 1), (63, 31)] (regs [(0xF, 7)]))).reg 0xF = 7 := by decide +kernel

/-- T6 10: an overlap; the second of three pixels is untouched. -/
theorem test_drw_collision :
    onPixels [0] (after 0xD011 (lit [(0, 0), (1, 0)] { poke 0x300 [0xA0] State.reset with i := 0x300 })) =
      [(1, 0), (2, 0)] ∧
    (after 0xD011 (lit [(0, 0), (1, 0)] { poke 0x300 [0xA0] State.reset with i := 0x300 })).reg 0xF = 1 := by
  decide +kernel

/-- T6 7, T6 8: clipped on the right and at the bottom, no wrap. -/
theorem test_drw_clips :
    onPixels [0, 1] (after 0xD011 { poke 0x300 [0xFF] (regs [(0, 0x3C)]) with i := 0x300 }) =
      [(60, 0), (61, 0), (62, 0), (63, 0)] ∧
    onPixels [0, 31] (after 0xD012 { poke 0x300 [0xFF, 0xFF] (regs [(1, 0x1F)]) with i := 0x300 }) =
      [(0, 31), (1, 31), (2, 31), (3, 31), (4, 31), (5, 31), (6, 31), (7, 31)] := by decide +kernel

/-! ### The step and the host's operations -/

/-- T7 2: an odd `PC`. -/
theorem test_step_odd :
    (stateAfterStep { poke 0x201 [0x60, 0x07] State.reset with pc := 0x201 }).reg 0 = 7 ∧
      (stateAfterStep { poke 0x201 [0x60, 0x07] State.reset with pc := 0x201 }).pc = 0x0203 := by decide +kernel

/-- T7 3. -/
theorem test_step_invalid :
    stepReport State.reset = { status := .invalidOpcode, cause := 1, info := .opcode 0x0000 0x0200 } ∧
      (stateAfterStep State.reset).pc = 0x0202 := by decide +kernel

/-- T7 10, T7 12. -/
theorem test_step_fetch_fault :
    (stepReport { State.reset with pc := 0x0FFF }).info = .fault (.addressError .fetch 0x1000 0x0FFF) ∧
      (stepReport { State.reset with pc := 0x10FE }).info = .fault (.addressError .fetch 0x10FE 0x10FE) := by
  decide +kernel

/-- T5 9, T5 11. -/
theorem test_tick :
    (tickTimers { State.reset with dt := 1, st := 0xFF }).dt = 0 ∧
      (tickTimers { State.reset with dt := 1, st := 0xFF }).st = 0xFE ∧
      (tickTimers { State.reset with dt := 2, st := 0 }).st = 0 := by decide +kernel

/-- T5 19, T5 20. -/
theorem test_readFb : readFb 0 (lit [(0, 0)] State.reset) = 1 ∧ readFb 2047 (lit [(0, 0)] State.reset) = 0 := by
  decide +kernel

/-- S2: two bytes. -/
theorem test_loadProgram : peek 0x1FF 4 (perform (.loadProgram [0x12, 0x00, 0x34]) State.reset).2 = [0, 0x12, 0x00, 0x34] := by
  decide +kernel

/-- The row's word runs as the first instruction after reset. -/
theorem test_withFetchWord :
    step (State.reset.withFetchWord 16 0x6A42) = .next ((State.reset.withFetchWord 16 0x6A42).result 0xA 0x42) := by rfl

/-! ### Witnesses: the hypotheses of the statements can be met, each clause at the edge of its range -/

/-- The reset state with `I` set. -/
def atI (a : Word) : State := { State.reset with i := a }

/-- The reset state with an opcode in memory at an address and `PC` there. -/
def placed (pc : Word) (w : Word) : State := ({ State.reset with pc := pc } : State).placeOpcode w

theorem witness_EncodeOfDecodeIsTheWord : ∃ w i, decodeWord w = .ok i := ⟨0x5121, .seReg 1 2 1, by decide⟩

/-- Each of the four disjuncts, at its edges. -/
theorem witness_InvalidOpcodesAreThoseOfFourFamilies :
    decodeWord 0x00DF = .error (.family0 0x00DF) ∧ decodeWord 0x00EF = .error (.family0 0x00EF) ∧
      decodeWord 0x0FFF = .error (.family0 0x0FFF) ∧ decodeWord 0x8008 = .error (.family8 0x8008) ∧
      decodeWord 0x8FFD = .error (.family8 0x8FFD) ∧ decodeWord 0xE09D = .error (.familyE 0xE09D) ∧
      decodeWord 0xEFA2 = .error (.familyE 0xEFA2) ∧ decodeWord 0xF006 = .error (.familyF 0xF006) ∧
      decodeWord 0xFF66 = .error (.familyF 0xFF66) := by decide

/-- The hypothesis of `RowDecodes`, for each of the 34 rows of R46: its own match word meets it. -/
theorem witness_RowDecodes :
    ([(0xFFFF, 0x00E0), (0xFFFF, 0x00EE), (0xF000, 0x1000), (0xF000, 0x2000), (0xF000, 0x3000), (0xF000, 0x4000),
      (0xF000, 0x5000), (0xF000, 0x6000), (0xF000, 0x7000), (0xF000, 0x9000), (0xF000, 0xA000), (0xF000, 0xB000),
      (0xF000, 0xC000), (0xF000, 0xD000)] : List (Word × Word)).all (fun p => p.2 &&& p.1 == p.2) = true ∧
    ([(0xF00F, 0x8000), (0xF00F, 0x8001), (0xF00F, 0x8002), (0xF00F, 0x8003), (0xF00F, 0x8004), (0xF00F, 0x8005),
      (0xF00F, 0x8006), (0xF00F, 0x8007), (0xF00F, 0x800E)] : List (Word × Word)).all (fun p => p.2 &&& p.1 == p.2) = true ∧
    ([(0xF0FF, 0xE09E), (0xF0FF, 0xE0A1), (0xF0FF, 0xF007), (0xF0FF, 0xF00A), (0xF0FF, 0xF015), (0xF0FF, 0xF018),
      (0xF0FF, 0xF01E), (0xF0FF, 0xF029), (0xF0FF, 0xF033), (0xF0FF, 0xF055), (0xF0FF, 0xF065)] :
        List (Word × Word)).all (fun p => p.2 &&& p.1 == p.2) = true := by decide

/-- At the last address that can be fetched from. -/
theorem witness_StepRunsTheDecodedInstruction :
    ∃ (s : State) (w : Word) (i : Instr), s.pc.toNat ≤ 0x0FFE ∧
      w.toNat = 256 * (s.byte s.pc.toNat).toNat + (s.byte (s.pc.toNat + 1)).toNat ∧ decodeWord w = .ok i :=
  ⟨placed 0x0FFE 0x6001, 0x6001, .ldImm 0 1, by decide +kernel⟩

theorem witness_FetchIsBigEndianOrFaults :
    (∃ s : State, s.pc.toNat ≤ 0x0FFE) ∧ (∃ s : State, 0x0FFE < s.pc.toNat) ∧ ∃ s : State, 0x0FFF < s.pc.toNat :=
  ⟨⟨placed 0x0FFE 0, by decide +kernel⟩, ⟨{ State.reset with pc := 0x0FFF }, by decide⟩,
    { State.reset with pc := 0x1000 }, by decide⟩

theorem witness_InvalidOpcodeOnlyAdvances :
    ∃ (s : State) (w : Word) (r : Reject), fetch s = .ok w ∧ decodeWord w = .error r :=
  ⟨State.reset, 0x0000, .family0 0x0000, by decide +kernel⟩

/-- A fault of each kind: of the fetch, of the stack full and empty, of a data access. -/
theorem witness_FaultLeavesTheStateAsItWas :
    (∃ s f, step s = .fault f ∧ f = .addressError .fetch 0x1000 0x0FFF) ∧
      (∃ s f, step s = .fault f ∧ f = .stackOverflow 0x200) ∧ (∃ s f, step s = .fault f ∧ f = .stackUnderflow 0x200) ∧
      ∃ s f, step s = .fault f ∧ f = .addressError .data 0x1000 0x200 :=
  ⟨⟨{ State.reset with pc := 0x0FFF }, _, rfl, rfl⟩,
    ⟨(stacked 16 State.reset.stk 0x200).placeOpcode 0x2400, _, rfl, rfl⟩, ⟨placed 0x200 0x00EE, _, rfl, rfl⟩,
    (atI 0x0FFF).placeOpcode 0xF165, _, rfl, rfl⟩

/-- Each of the six instructions that fault, at the edge of its condition. -/
theorem witness_FaultsOnlyFromTheirInstructions :
    (∃ f, exec (.call 0x400) (stacked 16 State.reset.stk 0x200) = .fault f) ∧ (∃ f, exec .ret State.reset = .fault f) ∧
      (∃ f, exec (.drw 0 1 2) (atI 0x0FFF) = .fault f) ∧ (∃ f, exec (.ldB 0) (atI 0x0FFE) = .fault f) ∧
      (∃ f, exec (.storeRegs 15) (atI 0x0FF1) = .fault f) ∧ ∃ f, exec (.loadRegs 15) (atI 0x0FF1) = .fault f :=
  ⟨⟨_, rfl⟩, ⟨_, rfl⟩, ⟨_, rfl⟩, ⟨_, rfl⟩, ⟨_, rfl⟩, ⟨_, rfl⟩⟩

theorem witness_FaultSurvivesKeysAndTicks : ∃ s f, step s = .fault f := ⟨placed 0x200 0x00EE, _, rfl⟩

/-- Each of the four statuses, and a fault with each of the three codes. -/
theorem witness_OutcomeSaysWhatTheStepDid :
    (stepReport (placed 0x200 0x1200)).status = .ok ∧ (stepReport (placed 0x200 0xF30A)).status = .waitKey ∧
      (stepReport State.reset).status = .invalidOpcode ∧ (stepReport (placed 0x200 0x00EE)).status = .fault ∧
      (stepReport (placed 0x200 0x00EE)).info = .fault (.stackUnderflow 0x200) ∧
      (stepReport ((stacked 16 State.reset.stk 0x200).placeOpcode 0x2400)).info = .fault (.stackOverflow 0x200) ∧
      (stepReport ((atI 0x0FFF).placeOpcode 0xF165)).info = .fault (.addressError .data 0x1000 0x200) := by
  decide +kernel

/-- A jump with the largest `PC` of R12, and a call at the last fetchable address. -/
theorem witness_InvariantIsKeptByEveryStep :
    (∃ s t : State, s.Inv ∧ step s = .next t ∧ t.pc = 0x10FE) ∧
      ∃ s t : State, s.Inv ∧ step s = .next t ∧ t.slot 0 = 0x0FFE :=
  ⟨⟨(regs [(0, 0xFF)]).placeOpcode 0xBFFF, _, by decide +kernel, rfl, by decide +kernel⟩,
    placed 0x0FFE 0x2400, _, by decide +kernel, rfl, by decide +kernel⟩

theorem witness_InvariantIsKeptByTheHost : ∃ s : State, s.Inv := ⟨State.reset, by decide⟩

/-- One step of each of the three clauses. -/
theorem witness_PcFollowsTheTable :
    (∃ t, exec (.jpV0 0xFFF) (regs [(0, 0xFF)]) = .next t) ∧
      (∃ w r, fetch State.reset = .ok w ∧ decodeWord w = .error r) ∧ ∃ f, step (placed 0x200 0x00EE) = .fault f :=
  ⟨⟨_, rfl⟩, ⟨0x0000, .family0 0x0000, by decide +kernel⟩, _, rfl⟩

/-- For each item that an instruction writes, an instruction that changes it. -/
theorem witness_EachItemHasItsWriters :
    (∃ t, exec (.ldI 5) State.reset = .next t ∧ t.i ≠ State.reset.i) ∧
      (∃ t, exec (.call 5) State.reset = .next t ∧ t.sp ≠ State.reset.sp ∧ t.slot 0 ≠ State.reset.slot 0) ∧
      (∃ t, exec (.ldDtVx 1) (regs [(1, 5)]) = .next t ∧ t.dt ≠ 0) ∧
      (∃ t, exec (.ldStVx 1) (regs [(1, 5)]) = .next t ∧ t.st ≠ 0) ∧
      (∃ t, exec .cls (lit [(3, 4)] State.reset) = .next t ∧ t.pixel 3 4 ≠ (lit [(3, 4)] State.reset).pixel 3 4) ∧
      (∃ t, exec (.storeRegs 0) (regs [(0, 5)]) = .next t ∧ t.byte 0 ≠ State.reset.byte 0) ∧
      ∃ t, exec (.rnd 0 0) State.reset = .next t ∧ t.draws ≠ State.reset.draws :=
  ⟨⟨_, rfl, by decide +kernel⟩, ⟨_, rfl, by decide +kernel⟩, ⟨_, rfl, by decide +kernel⟩, ⟨_, rfl, by decide +kernel⟩,
    ⟨_, rfl, by decide +kernel⟩, ⟨_, rfl, by decide +kernel⟩, _, rfl, Nat.succ_ne_zero 0⟩

/-- A flag instruction with VF as its destination, and a plain write to VF. -/
theorem witness_VfIsWrittenOnlyAsAFlagOrARegister :
    (∃ t, exec (.addReg 15 1) (regs [(15, 0xF0), (1, 0x20)]) = .next t ∧ writesFlag (.addReg 15 1) = true) ∧
      ∃ t, exec (.ldImm 15 7) State.reset = .next t ∧ t.reg 15 ≠ State.reset.reg 15 :=
  ⟨⟨_, rfl, rfl⟩, _, rfl, by decide +kernel⟩

theorem witness_CallPushesItsOwnAddress : (∃ s : State, s.sp.val = 16) ∧ ∃ s : State, s.sp.val = 15 ∧ s.sp.val < 16 :=
  ⟨⟨stacked 16 State.reset.stk 0x200, rfl⟩, stacked 15 State.reset.stk 0x200, by decide⟩

theorem witness_ReturnGoesPastTheCall :
    (∃ s : State, s.sp.val = 0) ∧ (∃ (s : State) (k : RegIx), k.val + 1 = s.sp.val ∧ k = 0) ∧
      ∃ (s : State) (k : RegIx), k.val + 1 = s.sp.val ∧ k = 15 :=
  ⟨⟨State.reset, rfl⟩, ⟨stacked 1 State.reset.stk 0x200, 0, by decide⟩, stacked 16 State.reset.stk 0x200, 15, by decide⟩

theorem witness_CallThenReturnComesBack : ∃ s : State, s.sp.val < 16 ∧ s.sp.val = 15 :=
  ⟨stacked 15 State.reset.stk 0x200, by decide⟩

/-- At the entry point and at the last fetchable address. -/
theorem witness_JumpToItselfChangesNothing :
    ∀ s ∈ [placed 0x200 0x1200, placed 0x0FFE 0x1FFE], s.pc.toNat ≤ 0x0FFE ∧
      256 * (s.byte s.pc.toNat).toNat + (s.byte (s.pc.toNat + 1)).toNat = 0x1000 + s.pc.toNat := by decide +kernel

/-- A register value above 0x0F. -/
theorem witness_SkipsOnAKey : ∃ (x k : RegIx) (s : State), k.val = (s.reg x).toNat % 16 ∧ s.reg x = 0x1A :=
  ⟨4, 10, regs [(4, 0x1A)], by decide +kernel⟩

/-- The condition `x ≠ 15` of the five flag instructions. -/
theorem witness_FlagInstructions : ∃ x : RegIx, x ≠ 15 := ⟨14, by decide⟩

/-- In range up to 0x0FFD, out of range from 0x0FFE; bytes below and above the three. -/
theorem witness_StoresThreeDecimalDigits :
    (∃ s : State, 0x0FFD < s.i.toNat) ∧ (∃ s : State, s.i.toNat ≤ 0x0FFD) ∧
      ∃ (s : State) (a b : Nat), s.i.toNat ≤ 0x0FFD ∧ a < s.i.toNat ∧ s.i.toNat + 3 ≤ b :=
  ⟨⟨atI 0x0FFE, by decide⟩, ⟨atI 0x0FFD, by decide⟩, atI 0x300, 0x2FF, 0x303, by decide⟩

/-- All 16 registers at 0x0FF0 and at 0x0FF1; a register of the block; bytes below and above it. -/
theorem witness_StoresRegistersAtI :
    (∃ (s : State) (x : RegIx), 0x0FFF < s.i.toNat + x.val) ∧ (∃ (s : State) (x : RegIx), s.i.toNat + x.val ≤ 0x0FFF) ∧
      (∃ x r : RegIx, r.val ≤ x.val) ∧
      ∃ (s : State) (x : RegIx) (a b : Nat), s.i.toNat + x.val ≤ 0x0FFF ∧ a < s.i.toNat ∧ s.i.toNat + x.val < b :=
  ⟨⟨atI 0x0FF1, 15, by decide⟩, ⟨atI 0x0FF0, 15, by decide⟩, ⟨0, 0, by decide⟩, atI 0x400, 2, 0x3FF, 0x403, by decide⟩

theorem witness_LoadsRegistersFromI :
    (∃ (s : State) (x : RegIx), 0x0FFF < s.i.toNat + x.val) ∧ ∃ (s : State) (x : RegIx), s.i.toNat + x.val ≤ 0x0FFF :=
  ⟨⟨atI 0x0FFF, 1, by decide⟩, atI 0x0FFF, 0, by decide⟩

theorem witness_StoredRegistersLoadBack : ∃ (x : RegIx) (s : State), s.i.toNat + x.val ≤ 0x0FFF :=
  ⟨15, atI 0x0FF0, by decide⟩

theorem witness_StoredCodeIsFetched : ∃ (x : RegIx) (s : State), 1 ≤ x.val ∧ s.i.toNat + x.val ≤ 0x0FFF :=
  ⟨1, atI 0x0FFE, by decide⟩

/-- Two instructions other than CXKK, one with a next state and one with a fault. -/
theorem witness_RandomByteIsIgnoredByTheOthers :
    (∀ x kk, Instr.addImm 0 1 ≠ .rnd x kk) ∧ (∃ t, exec (.addImm 0 1) State.reset = .next t) ∧
      (∀ x kk, Instr.ret ≠ .rnd x kk) ∧ ∃ f, exec .ret State.reset = .fault f :=
  ⟨nofun, ⟨_, rfl⟩, nofun, _, rfl⟩

theorem witness_SoundTimerIsNeverRead :
    (∃ t, exec (.ldStVx 0) State.reset = .next t) ∧ ∃ f, exec .ret State.reset = .fault f := ⟨⟨_, rfl⟩, _, rfl⟩

theorem witness_KeysAreReadOnlyByKeyInstructions :
    (∀ x, Instr.ret ≠ .skp x ∧ Instr.ret ≠ .sknp x ∧ Instr.ret ≠ .ldVxK x) ∧ (∃ f, exec .ret State.reset = .fault f) ∧
      (∀ x, Instr.cls ≠ .skp x ∧ Instr.cls ≠ .sknp x ∧ Instr.cls ≠ .ldVxK x) ∧ ∃ t, exec .cls State.reset = .next t :=
  ⟨fun _ => ⟨nofun, nofun, nofun⟩, ⟨_, rfl⟩, fun _ => ⟨nofun, nofun, nofun⟩, _, rfl⟩

/-- No key; the first key; the last key alone; the fetch of an FX0A. -/
theorem witness_KeyWaitTakesTheLeastKey :
    (∃ s : State, ∀ k, s.keyDown k = false) ∧
      (∃ (k : RegIx) (s : State), k = 0 ∧ s.keyDown k = true ∧ ∀ j : RegIx, j.val < k.val → s.keyDown j = false) ∧
      (∃ (k : RegIx) (s : State), k = 15 ∧ s.keyDown k = true ∧ ∀ j : RegIx, j.val < k.val → s.keyDown j = false) ∧
      ∃ (s : State) (w : Word) (x : RegIx), fetch s = .ok w ∧ decodeWord w = .ok (.ldVxK x) :=
  ⟨⟨State.reset, by decide +kernel⟩, ⟨0, setKey 0 true State.reset, by decide +kernel⟩,
    ⟨15, setKey 15 true State.reset, by decide +kernel⟩, placed 0x200 0xF30A, 0xF30A, 3, by decide +kernel⟩

/-- Out of range at 0x0FFF with two rows; no rows at all; the last byte with one row; a pixel that goes from 1 to 0. -/
theorem witness_DrawIsAClippedXor :
    (∃ (n : Nibble) (s : State), 0 < n.toNat ∧ 0x0FFF < s.i.toNat + n.toNat - 1) ∧
      (∃ (n : Nibble) (s : State), n.toNat = 0 ∧ s.i = 0xFFFF) ∧
      (∃ (n : Nibble) (s : State), n = 1 ∧ s.i.toNat + n.toNat - 1 ≤ 0x0FFF ∧ s.i = 0x0FFF) ∧
      ∃ s t : State, exec (.drw 0 1 1) s = .next t ∧ s.pixel 3 0 = true ∧ t.pixel 3 0 = false ∧ t.reg 15 = 1 :=
  ⟨⟨2, atI 0x0FFF, by decide⟩, ⟨0, atI 0xFFFF, by decide⟩, ⟨1, atI 0x0FFF, by decide⟩,
    lit [(3, 0)] State.reset, _, rfl, by decide +kernel⟩

theorem witness_DrawingTwiceRestoresTheScreen :
    ∃ (x y : RegIx) (n : Nibble) (s : State), x ≠ 15 ∧ y ≠ 15 ∧ (n.toNat = 0 ∨ s.i.toNat + n.toNat - 1 ≤ 0x0FFF) ∧
      s.pixel 0 0 = false ∧ spriteBit s ((s.reg x).toNat % 64) ((s.reg y).toNat % 32) n.toNat 0 0 = true :=
  ⟨0, 1, 1, State.reset, by decide +kernel⟩

theorem witness_ReadFbGivesThePixel :
    (∃ (idx : Fin 2048) (x y : Nat), x < 64 ∧ y < 32 ∧ idx.val = y * 64 + x ∧ idx = 0) ∧
      ∃ (idx : Fin 2048) (x y : Nat), x < 64 ∧ y < 32 ∧ idx.val = y * 64 + x ∧ idx = 2047 :=
  ⟨⟨0, 0, 0, by decide⟩, 2047, 63, 31, by decide⟩

/-- S2: 3585 bytes, 3584 bytes with its last byte, and addresses outside. -/
theorem witness_LoadProgramCopiesAllOrNothing :
    (∃ bytes : List Byte, 3584 < bytes.length) ∧
      (∃ bytes : List Byte, bytes.length = 3584 ∧ bytes.length ≤ 3584 ∧ 3583 < bytes.length) ∧
      ∃ (bytes : List Byte) (a b : Nat), bytes.length ≤ 3584 ∧ a < 0x200 ∧ 0x200 + bytes.length ≤ b ∧ bytes = [] :=
  ⟨⟨List.replicate 3585 0xAA, by rw [List.length_replicate]; omega⟩,
    ⟨List.replicate 3584 0xAA, by rw [List.length_replicate]; omega⟩, [], 0x1FF, 0x200, by decide⟩

end Sys2Proof.Tests
end

/-! ## The invariant of the machine

Every operation keeps `State.Inv`: first the ends that instructions share, then each instruction, the step, the host's
operations, and any sequence of them. -/

namespace Sys2Proof.Machine

theorem State.inv_reset : State.reset.Inv := by decide

/-! ### What keeps the invariant -/

theorem State.Inv.mem_wf {s : State} (hs : s.Inv) : Memory.wf s.mem := hs.1

theorem State.Inv.pc_le {s : State} (hs : s.Inv) : s.pc.toNat ≤ 0x10FE := hs.2.1

theorem State.Inv.slot_le {s : State} (hs : s.Inv) (k : RegIx) : (s.slot k).toNat ≤ 0x0FFE := hs.2.2 k

/-- The invariant speaks of memory, stack slots and `PC` alone. -/
theorem State.Inv.of_stk_eq {s t : State} (hs : s.Inv) (hmem : Memory.wf t.mem) (hstk : t.stk = s.stk)
    (hpc : t.pc.toNat ≤ 0x10FE) : t.Inv := by
  refine ⟨hmem, hpc, fun k => ?_⟩
  rw [State.slot, hstk]
  exact hs.slot_le k

/-- An operation that keeps memory, stack slots and `PC` keeps the invariant. -/
theorem State.Inv.congr {s t : State} (hs : s.Inv) (hmem : t.mem = s.mem) (hstk : t.stk = s.stk) (hpc : t.pc = s.pc) :
    t.Inv :=
  hs.of_stk_eq (hmem ▸ hs.mem_wf) hstk (hpc ▸ hs.pc_le)

/-- A fetched instruction stands at most at 0x0FFE (R32), so moving on by 2 or 4 stays in the bound. -/
theorem add_toNat_le_of_fetched {pc d : Word} (hf : pc.toNat ≤ 0x0FFE) (hd : d.toNat ≤ 4) :
    (pc + d).toNat ≤ 0x10FE := by
  rw [BitVec.toNat_add]; omega

/-- The fall through of a fetched instruction (R13) that keeps memory and stack slots. -/
theorem State.Inv.of_fallThrough {s t : State} (hs : s.Inv) (hf : s.pc.toNat ≤ 0x0FFE) (hmem : t.mem = s.mem)
    (hstk : t.stk = s.stk) (hpc : t.pc = s.pc + 2) : t.Inv :=
  hs.of_stk_eq (hmem ▸ hs.mem_wf) hstk (hpc ▸ add_toNat_le_of_fetched hf (by decide))

theorem State.Inv.skipIf {s : State} (hs : s.Inv) (hf : s.pc.toNat ≤ 0x0FFE) (c : Bool) : (s.skipIf c).Inv := by
  rw [State.skipIf_eq]
  refine hs.of_stk_eq hs.mem_wf rfl ?_
  cases c <;> exact add_toNat_le_of_fetched hf (by decide)

/-! ### Instructions that jump, use the stack or access memory -/

/-- The target of a jump is at most 0x0FFF (R48). -/
theorem addrOfNNN_toNat_le (nnn : Addr12) : (addrOfNNN nnn).toNat ≤ 0x10FE := by
  rw [addrOfNNN_toNat]; omega

/-- BNNN reaches at most 0x0FFF + 0xFF = 0x10FE (R64): the bound of R12. -/
theorem addrOfNNN_add_zextByte_toNat_le (nnn : Addr12) (b : Byte) : (addrOfNNN nnn + zextByte b).toNat ≤ 0x10FE := by
  rw [BitVec.toNat_add, addrOfNNN_toNat, zextByte_toNat]; omega

/-- 2NNN pushes the address it was fetched from, at most 0x0FFE (R61, R63). -/
theorem execCall_keeps_inv {nnn : Addr12} {s t : State} (hs : s.Inv) (hf : s.pc.toNat ≤ 0x0FFE)
    (h : execCall nnn s = .next t) : t.Inv := by
  unfold execCall at h
  rcases s.push_cases s.pc with ⟨hlt, hpush⟩ | ⟨-, hpush⟩
  · rw [hpush] at h
    cases h
    refine ⟨hs.mem_wf, addrOfNNN_toNat_le nnn, fun k => ?_⟩
    simp only [State.slot, State.setPc, Vector.getElem_set]
    split
    · exact hf
    · exact hs.slot_le k
  · rw [hpush] at h
    cases h

/-- 00EE lands two bytes after an address the stack held, at most at 0x1000 (R61). -/
theorem execRet_keeps_inv {s t : State} (hs : s.Inv) (h : execRet s = .next t) : t.Inv := by
  unfold execRet at h
  rcases s.pop_cases with ⟨k, _, -, -, hpop⟩ | ⟨-, hpop⟩
  · rw [hpop] at h
    cases h
    exact hs.of_stk_eq hs.mem_wf rfl (add_toNat_le_of_fetched (hs.slot_le k) (by decide))
  · rw [hpop] at h
    cases h

/-- An access that completes was in range and went on as given (R36). -/
theorem State.checked_next {s t u : State} {len : Nat} (h : s.checked len (.next u) = .next t) :
    (len = 0 ∨ s.i.toNat + len ≤ 0x1000) ∧ u = t := by
  rcases s.checked_cases len (.next u) with ⟨hr, hc⟩ | ⟨-, hc⟩
  · rw [hc] at h
    exact ⟨(outOfRange_false_iff _ _).1 hr, Host.Outcome.next.inj h⟩
  · rw [hc] at h
    cases h

/-- FX33 and FX55 store inside the memory (R36), which stays in its canonical form. -/
theorem State.storeAtI_keeps_inv {s t : State} {bytes : List Byte} (hs : s.Inv) (hf : s.pc.toNat ≤ 0x0FFE)
    (hne : bytes ≠ []) (h : s.storeAtI bytes = .next t) : t.Inv := by
  obtain ⟨hrange, rfl⟩ := State.checked_next h
  have hpos : bytes.length ≠ 0 := mt List.length_eq_zero_iff.1 hne
  exact hs.of_stk_eq (Memory.wf_store _ _ _ hs.mem_wf (hrange.resolve_left hpos)) rfl
    (add_toNat_le_of_fetched hf (by decide))

/-- FX0A falls through with a key, and keeps the whole state without one (R99). -/
theorem execLdVxK_keeps_inv {x : RegIx} {s t : State} (hs : s.Inv) (hf : s.pc.toNat ≤ 0x0FFE)
    (h : execLdVxK x s = .next t) : t.Inv := by
  unfold execLdVxK at h
  split at h
  · cases h
    exact hs.of_fallThrough hf rfl rfl rfl
  · cases h
    exact hs

theorem execLoadRegs_keeps_inv {x : RegIx} {s t : State} (hs : s.Inv) (hf : s.pc.toNat ≤ 0x0FFE)
    (h : execLoadRegs x s = .next t) : t.Inv := by
  obtain ⟨-, rfl⟩ := State.checked_next h
  rw [State.loadRegList_rest]
  exact hs.of_fallThrough hf rfl rfl rfl

/-! ### The step -/

/-- Every fetched instruction that completes keeps the invariant. -/
theorem exec_keeps_inv {i : Instr} {s t : State} (hs : s.Inv) (hf : s.pc.toNat ≤ 0x0FFE) (h : exec i s = .next t) :
    t.Inv := by
  cases i with
  | jp nnn =>
    cases h
    exact hs.of_stk_eq hs.mem_wf rfl (addrOfNNN_toNat_le nnn)
  | jpV0 nnn =>
    cases h
    exact hs.of_stk_eq hs.mem_wf rfl (addrOfNNN_add_zextByte_toNat_le nnn _)
  | call nnn => exact execCall_keeps_inv hs hf h
  | ret => exact execRet_keeps_inv hs h
  | seImm | sneImm | seReg | sneReg | skp | sknp =>
    cases h
    exact hs.skipIf hf _
  | ldB x => exact State.storeAtI_keeps_inv hs hf (by simp [bcdDigits]) h
  | storeRegs x => exact State.storeAtI_keeps_inv hs hf (List.ne_nil_of_length_eq_add_one (s.length_regBytes x)) h
  | loadRegs => exact execLoadRegs_keeps_inv hs hf h
  | ldVxK => exact execLdVxK_keeps_inv hs hf h
  | drw =>
    obtain ⟨-, rfl⟩ := State.checked_next h
    exact hs.of_fallThrough hf rfl rfl rfl
  | cls | ldImm | addImm | ldReg | orReg | andReg | xorReg | addReg | subReg | shr | subnReg | shl | ldI | rnd | ldVxDt
  | ldDtVx | ldStVx | addI | ldF =>
    cases h
    exact hs.of_fallThrough hf rfl rfl rfl

theorem step_keeps_inv {s t : State} (hs : s.Inv) (h : step s = .next t) : t.Inv := by
  rcases step_cases s with ⟨-, hfault⟩ | ⟨_, _, hf, -, -, hskip⟩ | ⟨_, _, hf, -, -, hexec⟩
  · rw [hfault] at h
    cases h
  · rw [hskip] at h
    cases h
    exact hs.of_fallThrough hf rfl rfl rfl
  · exact exec_keeps_inv hs hf (hexec ▸ h)

/-! ### The host's operations -/

theorem stateAfterStep_keeps_inv {s : State} (hs : s.Inv) : (stateAfterStep s).Inv := by
  unfold stateAfterStep
  split
  · next h => exact step_keeps_inv hs h
  · exact hs
  · exact hs

/-- `load_program` writes from 0x200 to at most 0x0FFF (R132), which keeps the canonical form of memory. -/
theorem loadProgram_keeps_inv {bytes : List Byte} {s t : State} (hs : s.Inv) (h : loadProgram bytes s = .ok t) :
    t.Inv := by
  unfold loadProgram at h
  split at h
  · cases h
  · next hlen =>
    cases h
    have htop : Config.progBase + Config.maxProg = Config.memSize := rfl
    exact hs.of_stk_eq (Memory.wf_store _ _ _ hs.mem_wf (by omega)) rfl hs.pc_le

theorem perform_keeps_inv (op : HostOp) {s : State} (hs : s.Inv) : (perform op s).2.Inv := by
  cases op with
  | reset => exact State.inv_reset.congr rfl rfl rfl
  | loadProgram bytes =>
    cases h : loadProgram bytes s with
    | ok t => simpa only [perform, h] using loadProgram_keeps_inv hs h
    | error e => simpa only [perform, h] using hs
  | step => exact stateAfterStep_keeps_inv hs
  | tickTimers => exact hs.congr rfl rfl rfl
  | setKey k b => exact hs.congr rfl rfl rfl
  | readFb idx => exact hs

theorem performAll_keeps_inv (ops : List HostOp) {s : State} (hs : s.Inv) : (performAll ops s).2.Inv := by
  induction ops generalizing s with
  | nil => exact hs
  | cons op rest ih => exact ih (perform_keeps_inv op hs)

/-- Settles O19, by induction on the list of operations: each operation keeps the invariant, and reset has it. -/
theorem invariantIsKeptByTheHost : Obligations.InvariantIsKeptByTheHost := by
  constructor
  · intro ops s hs
    exact performAll_keeps_inv ops hs
  · intro ops
    exact (performAll_keeps_inv ops State.inv_reset).pc_le

end Sys2Proof.Machine

/-! ## The state: reset, invariant, frame and what is read

The statements about the items of the state (10_state.md): the values at reset, the invariant under a step, the `PC` that each
instruction leaves, the items that each instruction may write, and the items that it does not read. -/

namespace Sys2Proof.Machine

/-! ### Reset and the invariant -/

/-- Settles O18: a fetch fault has no next state, an invalid opcode falls through, and every fetched instruction keeps the
invariant. -/
theorem invariantIsKeptByEveryStep : Obligations.InvariantIsKeptByEveryStep := by
  intro s t hs h
  exact step_keeps_inv hs h

/-- Settles O17: the reset state meets the three clauses of the invariant. -/
theorem invariantHoldsAtReset : Obligations.InvariantHoldsAtReset :=
  State.inv_reset

/-- An address of the font has its font byte at reset (R131). -/
theorem Memory.font_getElem?_eq_initial {a : Nat} (h : a ≤ 0x04F) : Config.font[a]? = some (Memory.initial a) := by
  have hlen : a < Config.font.length := Nat.lt_succ_of_le h
  simp [Memory.initial, hlen]

/-- An address past the font is 0 at reset (R23). -/
theorem Memory.initial_pastFont {a : Nat} (h : 0x050 ≤ a) : Memory.initial a = 0 := by
  have hlen : Config.font.length ≤ a := h
  simp [Memory.initial, hlen]

/-- Settles O15: registers, slots and keys are constant vectors, the screen is the clear one, and the empty memory reads its
initial bytes. -/
theorem resetStateHasTheValuesOfTheTable : Obligations.ResetStateHasTheValuesOfTheTable := by
  have hreg : ∀ r, State.reset.reg r = 0 := fun r => Vector.getElem_replicate r.isLt
  have hslot : ∀ k, State.reset.slot k = 0 := fun k => Vector.getElem_replicate k.isLt
  have hkey : ∀ k, State.reset.keyDown k = false := fun k => Vector.getElem_replicate k.isLt
  exact ⟨hreg, rfl, rfl, rfl, hslot, rfl, rfl, FrameBuffer.pixel_clear, hkey, rfl,
    fun _ ha => Memory.font_getElem?_eq_initial ha, fun _ ha _ => Memory.initial_pastFont ha⟩

/-! ### What the instructions with several endings do when they complete -/

/-- 00EE when it completes (R61). -/
theorem execRet_next {s t : State} (h : execRet s = .next t) :
    ∃ (k : RegIx) (sp : Fin 17), k.val + 1 = s.sp.val ∧ sp.val = k.val ∧
      t = ({ s with sp := sp } : State).setPc (s.slot k + 2) := by
  unfold execRet at h
  rcases s.pop_cases with ⟨k, sp, hk, hsp, hpop⟩ | ⟨-, hpop⟩
  · rw [hpop] at h
    exact ⟨k, sp, hk, hsp, (Host.Outcome.next.inj h).symm⟩
  · rw [hpop] at h
    cases h

/-- 2NNN when it completes (R63). -/
theorem execCall_next {nnn : Addr12} {s t : State} (h : execCall nnn s = .next t) :
    ∃ (hlt : s.sp.val < 16) (sp : Fin 17), sp.val = s.sp.val + 1 ∧
      t = ({ s with stk := s.stk.set s.sp.val s.pc hlt, sp := sp } : State).setPc (addrOfNNN nnn) := by
  unfold execCall at h
  rcases s.push_cases s.pc with ⟨hlt, hpush⟩ | ⟨-, hpush⟩
  · rw [hpush] at h
    exact ⟨hlt, ⟨s.sp.val + 1, by omega⟩, rfl, (Host.Outcome.next.inj h).symm⟩
  · rw [hpush] at h
    cases h

/-- FX0A takes the least pressed key, or changes nothing (R99). -/
theorem execLdVxK_next {x : RegIx} {s t : State} (h : execLdVxK x s = .next t) :
    (∃ k, s.keyDown k = true ∧ (∀ j, j < k → s.keyDown j = false) ∧ t = s.result x (keyByte k)) ∨
      ((∀ k, s.keyDown k = false) ∧ t = s) := by
  unfold execLdVxK at h
  split at h
  · next k hk =>
    obtain ⟨hdown, hleast⟩ := (s.leastKeyDown_some k).1 hk
    exact .inl ⟨k, hdown, hleast, (Host.Outcome.next.inj h).symm⟩
  · next hnone => exact .inr ⟨s.leastKeyDown_none.1 hnone, (Host.Outcome.next.inj h).symm⟩

/-! ### The program counter -/

/-- The key that EX9E and EXA1 ask for (R70, R71). -/
theorem eq_keyIndex {k : RegIx} {b : Byte} (h : k.val = b.toNat % 16) : k = keyIndex b :=
  Fin.ext (h.trans (keyIndex_val b).symm)

/-- `PC` after a skip on the opposite condition (R65). -/
theorem State.skipIf_not_pc (s : State) (c : Bool) : (s.skipIf (!c)).pc = if c then s.pc + 2 else s.pc + 4 := by
  cases c <;> simp

theorem execLdVxK_pc {x : RegIx} {s t : State} (h : execLdVxK x s = .next t) :
    t.pc = if ∃ k, s.keyDown k = true then s.pc + 2 else s.pc := by
  rcases execLdVxK_next h with ⟨k, hk, -, rfl⟩ | ⟨hnone, rfl⟩
  · rw [if_pos ⟨k, hk⟩, State.result_pc]
  · rw [if_neg (by simp only [hnone, Bool.false_eq_true, exists_const, not_false_eq_true])]

theorem execRet_pc {s t : State} (h : execRet s = .next t) {k : RegIx} (hk : k.val + 1 = s.sp.val) :
    t.pc = s.slot k + 2 := by
  obtain ⟨j, _, hj, -, rfl⟩ := execRet_next h
  have hjk : j = k := Fin.ext (by omega)
  rw [hjk, State.setPc_pc]

/-- Every instruction leaves `PC` as the table of R13 says. -/
theorem exec_pcRule {i : Instr} {s t : State} (h : exec i s = .next t) : PcRule i s t := by
  cases i with
  | jp nnn =>
    cases h
    exact addrOfNNN_toNat nnn
  | call nnn =>
    obtain ⟨_, _, -, rfl⟩ := execCall_next h
    exact addrOfNNN_toNat nnn
  | jpV0 nnn =>
    cases h
    simp only [PcRule, State.setPc_pc, BitVec.toNat_add, addrOfNNN_toNat, zextByte_toNat]
  | ret => exact fun k hk => execRet_pc h hk
  | seImm | sneImm | seReg | sneReg =>
    cases h
    simp [PcRule]
  | skp =>
    cases h
    intro k hk
    rw [eq_keyIndex hk, State.skipIf_pc]
  | sknp =>
    cases h
    intro k hk
    rw [eq_keyIndex hk, State.skipIf_not_pc]
  | ldVxK x => exact execLdVxK_pc h
  | drw | ldB | storeRegs =>
    obtain ⟨-, rfl⟩ := State.checked_next h
    rfl
  | loadRegs =>
    obtain ⟨-, rfl⟩ := State.checked_next h
    rw [State.loadRegList_rest]
    rfl
  | cls | ldImm | addImm | ldReg | orReg | andReg | xorReg | addReg | subReg | shr | subnReg | shl | ldI | rnd | ldVxDt
  | ldDtVx | ldStVx | addI | ldF =>
    cases h
    rfl

/-- An invalid opcode falls through (R112). -/
theorem step_invalidOpcode {s : State} {w : Word} {r : Reject} (hf : fetch s = .ok w) (hd : decodeWord w = .error r) :
    step s = .next s.advance := by
  simp only [step, hf, hd, invalidOpcode]

theorem stateAfterStep_of_next {s t : State} (h : step s = .next t) : stateAfterStep s = t := by
  simp only [stateAfterStep, h]

/-- A fault leaves the state before the step (R116). -/
theorem stateAfterStep_of_fault {s : State} {f : Fault} (h : step s = .fault f) : stateAfterStep s = s := by
  simp only [stateAfterStep, h]

/-- Settles O20: the rule of each instruction, and the state after a step that meets an invalid opcode or a fault. -/
theorem pcFollowsTheTable : Obligations.PcFollowsTheTable := by
  refine ⟨fun _ _ _ h => exec_pcRule h, fun s w r hf hd => ?_, fun s f h => ?_⟩
  · rw [stateAfterStep_of_next (step_invalidOpcode hf hd), State.advance_pc]
  · rw [stateAfterStep_of_fault h]

/-! ### The frame of every instruction -/

section
variable {regs : List RegIx} {items : List Item}

theorem SameItem.refl (it : Item) (s : State) : SameItem it s s := by
  cases it with
  | stack => exact ⟨rfl, fun _ => rfl⟩
  | i | dt | st | draws => rfl
  | screen | keys | memory => intros _; intros; rfl

theorem SameItem.trans {it : Item} {s t u : State} (h₁ : SameItem it s t) (h₂ : SameItem it t u) : SameItem it s u := by
  cases it with
  | stack => exact ⟨h₂.1.trans h₁.1, fun k => (h₂.2 k).trans (h₁.2 k)⟩
  | i | dt | st | draws => exact Eq.trans h₂ h₁
  | screen => exact fun x y => (h₂ x y).trans (h₁ x y)
  | keys => exact fun k => (h₂ k).trans (h₁ k)
  | memory => exact fun a => (h₂ a).trans (h₁ a)

theorem KeepsAllBut.refl (s : State) : KeepsAllBut regs items s s :=
  ⟨fun _ _ => rfl, fun it _ => SameItem.refl it s⟩

theorem KeepsAllBut.trans {s t u : State} (h₁ : KeepsAllBut regs items s t) (h₂ : KeepsAllBut regs items t u) :
    KeepsAllBut regs items s u :=
  ⟨fun r hr => (h₂.1 r hr).trans (h₁.1 r hr), fun it hit => (h₁.2 it hit).trans (h₂.2 it hit)⟩

/-! One rule per operation on the state: what it writes is named by the frame, and the rest it keeps. -/

theorem keepsAllBut_setPc (s : State) (a : Word) : KeepsAllBut regs items s (s.setPc a) :=
  ⟨fun _ _ => rfl, fun it _ => SameItem.refl it s⟩

theorem keepsAllBut_advance (s : State) : KeepsAllBut regs items s s.advance :=
  ⟨fun _ _ => rfl, fun it _ => SameItem.refl it s⟩

theorem keepsAllBut_skipIf (s : State) (c : Bool) : KeepsAllBut regs items s (s.skipIf c) := by
  cases c with
  | true => exact (keepsAllBut_advance s).trans (keepsAllBut_advance s.advance)
  | false => exact keepsAllBut_advance s

theorem keepsAllBut_setReg {x : RegIx} (hx : x ∈ regs) (s : State) (b : Byte) : KeepsAllBut regs items s (s.setReg x b) :=
  ⟨fun _ hr => s.reg_setReg_other b fun hrx => hr (hrx ▸ hx), fun it _ => SameItem.refl it s⟩

/-- An update of one item: the registers are the same vector, and every other item reads the same. -/
theorem KeepsAllBut.of_item {it₀ : Item} {s t : State} (h : it₀ ∈ items) (hv : t.v = s.v)
    (hrest : ∀ it, it ≠ it₀ → SameItem it s t) : KeepsAllBut regs items s t :=
  ⟨fun r _ => State.reg_congr hv r, fun it hit => hrest it fun heq => hit (heq ▸ h)⟩

theorem keepsAllBut_setI (h : .i ∈ items) (s : State) (a : Word) : KeepsAllBut regs items s (s.setI a) :=
  .of_item h rfl fun it hne => by cases it <;> simp [SameItem] at hne ⊢

theorem keepsAllBut_setDt (h : .dt ∈ items) (s : State) (b : Byte) : KeepsAllBut regs items s (s.setDt b) :=
  .of_item h rfl fun it hne => by cases it <;> simp [SameItem] at hne ⊢

theorem keepsAllBut_setSt (h : .st ∈ items) (s : State) (b : Byte) : KeepsAllBut regs items s (s.setSt b) :=
  .of_item h rfl fun it hne => by cases it <;> simp [SameItem] at hne ⊢

theorem keepsAllBut_drawn (h : .draws ∈ items) (s : State) : KeepsAllBut regs items s s.drawn :=
  .of_item h rfl fun it hne => by cases it <;> simp [SameItem] at hne ⊢

theorem keepsAllBut_setMem (h : .memory ∈ items) (s : State) (m : Memory) : KeepsAllBut regs items s { s with mem := m } :=
  .of_item h rfl fun it hne => by cases it <;> simp [SameItem] at hne ⊢

theorem keepsAllBut_setFb (h : .screen ∈ items) (s : State) (fb : FrameBuffer) :
    KeepsAllBut regs items s { s with fb := fb } :=
  .of_item h rfl fun it hne => by cases it <;> simp [SameItem] at hne ⊢

theorem keepsAllBut_setStack (h : .stack ∈ items) (s : State) (stk : Vector Word 16) (sp : Fin 17) :
    KeepsAllBut regs items s { s with stk := stk, sp := sp } :=
  .of_item h rfl fun it hne => by cases it <;> simp [SameItem] at hne ⊢

theorem keepsAllBut_result {x : RegIx} (hx : x ∈ regs) (s : State) (b : Byte) : KeepsAllBut regs items s (s.result x b) :=
  (keepsAllBut_setReg hx s b).trans (keepsAllBut_advance _)

theorem keepsAllBut_flaggedResult {x : RegIx} (hx : x ∈ regs) (hvf : vf ∈ regs) (s : State) (b f : Byte) :
    KeepsAllBut regs items s (s.flaggedResult x b f) :=
  ((keepsAllBut_setReg hx s b).trans (keepsAllBut_setReg hvf _ f)).trans (keepsAllBut_advance _)

theorem keepsAllBut_loadRegList {rs : List RegIx} (hrs : ∀ r ∈ rs, r ∈ regs) (s : State) :
    KeepsAllBut regs items s (s.loadRegList rs) := by
  induction rs generalizing s with
  | nil => exact .refl s
  | cons r rs ih =>
    have hqs : ∀ q ∈ rs, q ∈ regs := fun q hq => hrs q (List.mem_cons_of_mem r hq)
    exact (keepsAllBut_setReg (hrs r List.mem_cons_self) s _).trans (ih hqs _)

end

/-- The registers an instruction may write (R10, R11). -/
def writtenRegs (i : Instr) : List RegIx :=
  match i with
  | .ldImm x _ | .addImm x _ | .ldReg x _ | .orReg x _ | .andReg x _ | .xorReg x _ | .rnd x _ | .ldVxDt x | .ldVxK x => [x]
  | .addReg x _ | .subReg x _ | .shr x _ | .subnReg x _ | .shl x _ => [x, vf]
  | .drw _ _ _ => [vf]
  | .loadRegs x => regsUpTo x
  | .cls | .ret | .jp _ | .call _ | .seImm _ _ | .sneImm _ _ | .seReg _ _ _ | .sneReg _ _ _ | .ldI _ | .jpV0 _ | .skp _
  | .sknp _ | .ldDtVx _ | .ldStVx _ | .addI _ | .ldF _ | .ldB _ | .storeRegs _ => []

/-- The items beside the registers and `PC` that an instruction may write (R14 to R18, R30). -/
def writtenItems (i : Instr) : List Item :=
  match i with
  | .cls | .drw _ _ _ => [.screen]
  | .ret | .call _ => [.stack]
  | .ldI _ | .addI _ | .ldF _ => [.i]
  | .ldDtVx _ => [.dt]
  | .ldStVx _ => [.st]
  | .ldB _ | .storeRegs _ => [.memory]
  | .rnd _ _ => [.draws]
  | .jp _ | .seImm _ _ | .sneImm _ _ | .seReg _ _ _ | .ldImm _ _ | .addImm _ _ | .ldReg _ _ | .orReg _ _ | .andReg _ _
  | .xorReg _ _ | .addReg _ _ | .subReg _ _ | .shr _ _ | .subnReg _ _ | .shl _ _ | .sneReg _ _ _ | .jpV0 _ | .skp _
  | .sknp _ | .ldVxDt _ | .ldVxK _ | .loadRegs _ => []

/-- THE FRAME of every instruction: it keeps what it is not named to write. -/
theorem exec_keepsAllBut {i : Instr} {s t : State} (h : exec i s = .next t) :
    KeepsAllBut (writtenRegs i) (writtenItems i) s t := by
  cases i with
  | cls =>
    cases h
    exact (keepsAllBut_setFb List.mem_cons_self s _).trans (keepsAllBut_advance _)
  | ret =>
    obtain ⟨_, _, -, -, rfl⟩ := execRet_next h
    exact (keepsAllBut_setStack List.mem_cons_self s s.stk _).trans (keepsAllBut_setPc _ _)
  | call =>
    obtain ⟨_, _, -, rfl⟩ := execCall_next h
    exact (keepsAllBut_setStack List.mem_cons_self s _ _).trans (keepsAllBut_setPc _ _)
  | jp | jpV0 =>
    cases h
    exact keepsAllBut_setPc s _
  | seImm | sneImm | seReg | sneReg | skp | sknp =>
    cases h
    exact keepsAllBut_skipIf s _
  | ldImm | addImm | ldReg | orReg | andReg | xorReg | ldVxDt =>
    cases h
    exact keepsAllBut_result List.mem_cons_self s _
  | addReg | subReg | shr | subnReg | shl =>
    cases h
    exact keepsAllBut_flaggedResult List.mem_cons_self (List.mem_cons_of_mem _ List.mem_cons_self) s _ _
  | ldI | addI | ldF =>
    cases h
    exact (keepsAllBut_setI List.mem_cons_self s _).trans (keepsAllBut_advance _)
  | rnd =>
    cases h
    exact (keepsAllBut_result List.mem_cons_self s _).trans (keepsAllBut_drawn List.mem_cons_self _)
  | drw =>
    obtain ⟨-, rfl⟩ := State.checked_next h
    exact ((keepsAllBut_setFb List.mem_cons_self s _).trans (keepsAllBut_setReg List.mem_cons_self _ _)).trans
      (keepsAllBut_advance _)
  | ldVxK =>
    rcases execLdVxK_next h with ⟨_, -, -, rfl⟩ | ⟨-, rfl⟩
    · exact keepsAllBut_result List.mem_cons_self s _
    · exact .refl _
  | ldDtVx =>
    cases h
    exact (keepsAllBut_setDt List.mem_cons_self s _).trans (keepsAllBut_advance _)
  | ldStVx =>
    cases h
    exact (keepsAllBut_setSt List.mem_cons_self s _).trans (keepsAllBut_advance _)
  | ldB | storeRegs =>
    obtain ⟨-, rfl⟩ := State.checked_next h
    exact (keepsAllBut_setMem List.mem_cons_self s _).trans (keepsAllBut_advance _)
  | loadRegs x =>
    obtain ⟨-, rfl⟩ := State.checked_next h
    exact (keepsAllBut_loadRegList (fun _ hr => hr) s).trans (keepsAllBut_advance _)

/-! ### The writers of each item -/

theorem item_mem_writtenItems {i : Instr} {it : Item} {s t : State} (h : exec i s = .next t) (hne : ¬ SameItem it s t) :
    it ∈ writtenItems i :=
  not_imp_comm.1 ((exec_keepsAllBut h).2 it) hne

theorem reg_mem_writtenRegs {i : Instr} {r : RegIx} {s t : State} (h : exec i s = .next t) (hne : t.reg r ≠ s.reg r) :
    r ∈ writtenRegs i :=
  not_imp_comm.1 ((exec_keepsAllBut h).1 r) hne

/-- The instructions that the rules of an item name as its writers (R14 to R18, R30); the count `draws` is the model's own
(assumption 1). -/
def WriterOf (it : Item) (i : Instr) : Prop :=
  match it with
  | .i => (∃ nnn, i = .ldI nnn) ∨ (∃ x, i = .addI x) ∨ ∃ x, i = .ldF x
  | .stack => i = .ret ∨ ∃ nnn, i = .call nnn
  | .dt => ∃ x, i = .ldDtVx x
  | .st => ∃ x, i = .ldStVx x
  | .screen => i = .cls ∨ ∃ x y n, i = .drw x y n
  | .keys => False
  | .memory => (∃ x, i = .ldB x) ∨ ∃ x, i = .storeRegs x
  | .draws => ∃ x kk, i = .rnd x kk

/-- Each instruction writes at most one item, whose rule names it. -/
theorem writerOf_of_mem_writtenItems {it : Item} {i : Instr} (h : it ∈ writtenItems i) : WriterOf it i := by
  cases i <;> simp only [writtenItems, List.mem_singleton, List.not_mem_nil] at h <;> simp [h, WriterOf]

theorem exec_writerOf {i : Instr} {it : Item} {s t : State} (h : exec i s = .next t) (hne : ¬ SameItem it s t) :
    WriterOf it i :=
  writerOf_of_mem_writtenItems (item_mem_writtenItems h hne)

/-- 00EE gives a slot back without changing it (R15), so only 2NNN writes a slot. -/
theorem exec_slot_writer {i : Instr} {k : RegIx} {s t : State} (h : exec i s = .next t) (hne : t.slot k ≠ s.slot k) :
    ∃ nnn, i = .call nnn := by
  rcases exec_writerOf (it := .stack) h fun hs => hne (hs.2 k) with rfl | hcall
  · obtain ⟨_, _, -, -, rfl⟩ := execRet_next h
    exact absurd rfl hne
  · exact hcall

/-- Settles O21: an item that reads differently after an instruction is one the instruction's frame leaves open. -/
theorem eachItemHasItsWriters : Obligations.EachItemHasItsWriters := by
  intro i s t h
  have writer : ∀ it, ¬ SameItem it s t → WriterOf it i := fun _ => exec_writerOf h
  have keys : SameItem .keys s t := not_not.1 (writer .keys)
  refine ⟨keys, writer .i, fun hsp => ?_, fun ⟨_, hk⟩ => exec_slot_writer h hk, writer .dt, writer .st,
    fun ⟨x, y, hxy⟩ => ?_, fun ⟨a, ha⟩ => ?_, writer .draws⟩
  · exact writer .stack fun hs => hsp hs.1
  · exact writer .screen fun hs => hxy (hs x y)
  · exact writer .memory fun hs => ha (hs a)

/-! ### VF -/

/-- An instruction that may write VF does so as a flag (R11) or because VF is its destination (R10). -/
theorem writesVf_of_mem_writtenRegs {i : Instr} (h : vf ∈ writtenRegs i) :
    writesFlag i = true ∨ writesVfAsRegister i = true := by
  cases i with
  | addReg | subReg | shr | subnReg | shl | drw => exact .inl rfl
  | loadRegs x =>
    have hx : vf ≤ x := (mem_regsUpTo x vf).1 h
    exact .inr (decide_eq_true (le_antisymm (Fin.le_last x) hx))
  | ldImm | addImm | ldReg | orReg | andReg | xorReg | rnd | ldVxDt | ldVxK =>
    exact .inr (decide_eq_true (List.mem_singleton.1 h).symm)
  | cls | ret | jp | call | seImm | sneImm | seReg | sneReg | ldI | jpV0 | skp | sknp | ldDtVx | ldStVx | addI | ldF | ldB
  | storeRegs => exact absurd h List.not_mem_nil

theorem flagByte_eq_zero_or_one (c : Bool) : flagByte c = 0 ∨ flagByte c = 1 := by
  cases c with
  | false => exact .inl rfl
  | true => exact .inr rfl

/-- The flag is written last, so it is what VF holds, whatever the destination (R72). -/
theorem State.vf_flaggedResult (s : State) (x : RegIx) (r f : Byte) : (s.flaggedResult x r f).reg vf = f := by
  simp [State.reg_flaggedResult]

theorem exec_vf_of_writesFlag {i : Instr} {s t : State} (h : exec i s = .next t) (hi : writesFlag i = true) :
    ∃ c, t.reg vf = flagByte c := by
  cases i with
  | addReg | subReg | shr | subnReg | shl =>
    cases h
    exact ⟨_, State.vf_flaggedResult _ _ _ _⟩
  | drw =>
    obtain ⟨-, rfl⟩ := State.checked_next h
    exact ⟨_, State.reg_setReg_same _ vf _⟩
  | _ => exact absurd hi Bool.false_ne_true

/-- Settles O22: a flag is 0 or 1, and VF changes only where the frame of the instruction names it. -/
theorem vfIsWrittenOnlyAsAFlagOrARegister : Obligations.VfIsWrittenOnlyAsAFlagOrARegister := by
  refine fun i s t h => ⟨fun hi => ?_, fun hne => writesVf_of_mem_writtenRegs (reg_mem_writtenRegs h hne)⟩
  obtain ⟨c, hc⟩ := exec_vf_of_writesFlag h hi
  exact hc ▸ flagByte_eq_zero_or_one c

/-! ### What an instruction does not read

`State.retouch` replaces `ST`, the keys and the model's own count of random bytes. An instruction that has no business with what
is replaced commutes with it: it does not notice the change and does not undo it. -/

/-- `ST` (R16), the keys (R18) and the count of random bytes (assumption 1) changed by functions, all else as it was. -/
def State.retouch (fst : Byte → Byte) (fkey : Vector Bool 16 → Vector Bool 16) (fdraws : Nat → Nat) (s : State) : State :=
  { s with st := fst s.st, key := fkey s.key, draws := fdraws s.draws }

/-- An outcome with its next state, if it has one, changed by `g`. -/
def mapNext (g : State → State) (o : Host.Outcome State Fault Refusal) : Host.Outcome State Fault Refusal :=
  match o with
  | .next t => .next (g t)
  | .fault f => .fault f
  | .refused r => .refused r

section
variable (fst : Byte → Byte) (fkey : Vector Bool 16 → Vector Bool 16) (fdraws : Nat → Nat) (s : State)

theorem State.skipIf_retouch (c : Bool) : (s.retouch fst fkey fdraws).skipIf c = (s.skipIf c).retouch fst fkey fdraws := by
  cases c <;> rfl

theorem State.loadRegList_retouch (rs : List RegIx) :
    (s.retouch fst fkey fdraws).loadRegList rs = (s.loadRegList rs).retouch fst fkey fdraws := by
  induction rs generalizing s with
  | nil => rfl
  | cons r rs ih => exact ih (s.setReg r (s.byte (s.i.toNat + r.val)))

/-- The bounds check reads `I` and `PC` alone (R36). -/
theorem State.checked_retouch (len : Nat) {t u : State} (hu : u = t.retouch fst fkey fdraws) :
    (s.retouch fst fkey fdraws).checked len (.next u) =
      mapNext (State.retouch fst fkey fdraws) (s.checked len (.next t)) := by
  subst hu
  unfold State.checked
  rw [apply_ite (mapNext (State.retouch fst fkey fdraws))]
  rfl

theorem execRet_retouch :
    execRet (s.retouch fst fkey fdraws) = mapNext (State.retouch fst fkey fdraws) (execRet s) := by
  have hsp : (s.retouch fst fkey fdraws).sp = s.sp := rfl
  by_cases h : 0 < s.sp.val
  · simp only [execRet, State.pop, hsp, h, dif_pos]
    rfl
  · simp only [execRet, State.pop, hsp, h, dif_neg, not_false_eq_true]
    rfl

theorem execCall_retouch (nnn : Addr12) :
    execCall nnn (s.retouch fst fkey fdraws) = mapNext (State.retouch fst fkey fdraws) (execCall nnn s) := by
  have hsp : (s.retouch fst fkey fdraws).sp = s.sp := rfl
  by_cases h : s.sp.val < Config.stackDepth
  · simp only [execCall, State.push, hsp, h, dif_pos]
    rfl
  · simp only [execCall, State.push, hsp, h, dif_neg, not_false_eq_true]
    rfl

/-- The key scan sees only the keys (R99). -/
theorem execLdVxK_retouch (x : RegIx) :
    execLdVxK x (s.retouch fst id fdraws) = mapNext (State.retouch fst id fdraws) (execLdVxK x s) := by
  have hleast : (s.retouch fst id fdraws).leastKeyDown = s.leastKeyDown := rfl
  unfold execLdVxK
  rw [hleast]
  cases s.leastKeyDown <;> rfl

end

/-- Every instruction but FX18 commutes with a change of `ST`, every one but the three that read the keys with a change of the
keys, and every one but CXKK with a change of the count. -/
theorem exec_retouch {fst : Byte → Byte} {fkey : Vector Bool 16 → Vector Bool 16} {fdraws : Nat → Nat} {i : Instr}
    (hst : fst = id ∨ ∀ x, i ≠ .ldStVx x) (hkey : fkey = id ∨ ∀ x, i ≠ .skp x ∧ i ≠ .sknp x ∧ i ≠ .ldVxK x)
    (hdraws : fdraws = id ∨ ∀ x kk, i ≠ .rnd x kk) (s : State) :
    exec i (s.retouch fst fkey fdraws) = mapNext (State.retouch fst fkey fdraws) (exec i s) := by
  cases i with
  | ldStVx x =>
    obtain rfl := hst.resolve_right fun h => h x rfl
    rfl
  | skp x =>
    obtain rfl := hkey.resolve_right fun h => (h x).1 rfl
    exact congrArg _ (s.skipIf_retouch fst id fdraws _)
  | sknp x =>
    obtain rfl := hkey.resolve_right fun h => (h x).2.1 rfl
    exact congrArg _ (s.skipIf_retouch fst id fdraws _)
  | ldVxK x =>
    obtain rfl := hkey.resolve_right fun h => (h x).2.2 rfl
    exact execLdVxK_retouch fst fdraws s x
  | rnd x kk =>
    obtain rfl := hdraws.resolve_right fun h => h x kk rfl
    rfl
  | ret => exact execRet_retouch fst fkey fdraws s
  | call nnn => exact execCall_retouch fst fkey fdraws s nnn
  | seImm | sneImm | seReg | sneReg => exact congrArg _ (s.skipIf_retouch fst fkey fdraws _)
  | drw | ldB | storeRegs => exact s.checked_retouch fst fkey fdraws _ rfl
  | loadRegs x =>
    exact s.checked_retouch fst fkey fdraws _ (congrArg State.advance (s.loadRegList_retouch fst fkey fdraws _))
  | cls | jp | jpV0 | ldImm | addImm | ldReg | orReg | andReg | xorReg | addReg | subReg | shr | subnReg | shl | ldI
  | ldVxDt | ldDtVx | addI | ldF => rfl

/-- What commuting says of a next state and of a fault. -/
theorem exec_of_commutes {g : State → State} {i : Instr} {s : State} (h : exec i (g s) = mapNext g (exec i s)) :
    (∀ t, exec i s = .next t → exec i (g s) = .next (g t)) ∧ ∀ f, exec i s = .fault f → exec i (g s) = .fault f := by
  constructor
  · intro t hs
    rw [h, hs]
    rfl
  · intro f hs
    rw [h, hs]
    rfl

/-- Settles O46: FX18 overwrites `ST`, and every other instruction commutes with a change of `ST`. -/
theorem soundTimerIsNeverRead : Obligations.SoundTimerIsNeverRead := by
  intro i s b
  by_cases hi : ∃ x, i = .ldStVx x
  · obtain ⟨x, rfl⟩ := hi
    refine ⟨fun t h => ⟨s.reg x, ?_⟩, nofun⟩
    cases h
    rfl
  · have hst : ∀ x, i ≠ .ldStVx x := fun x hx => hi ⟨x, hx⟩
    obtain ⟨hnext, hfault⟩ := exec_of_commutes (exec_retouch (fst := fun _ => b) (.inr hst) (.inl rfl) (.inl rfl) s)
    exact ⟨fun t h => ⟨b, hnext t h⟩, hfault⟩

/-- Settles O47: an instruction that does not read the keys commutes with a change of the keys. -/
theorem keysAreReadOnlyByKeyInstructions : Obligations.KeysAreReadOnlyByKeyInstructions := by
  intro i s key hi
  exact exec_of_commutes (exec_retouch (fst := id) (fkey := fun _ => key) (.inl rfl) (.inr hi) (.inl rfl) s)

end Sys2Proof.Machine

/-! ## Memory: the fetch, and registers stored to memory and read back

The fetch (20_memory.md rule R32), and what an FX55 in range leaves for the next load and for the next fetch (R38, R39). -/

namespace Sys2Proof.Machine

/-! ### The fetch -/

/-- The first address out of range (R115) of the two bytes of a fetch that faults. -/
theorem max_memSize_eq_of_fetch_outOfRange {p : Nat} (h : 0x0FFE < p) :
    max p 0x1000 = if 0x0FFF < p then p else p + 1 := by
  split <;> omega

/-- A fetch that faults is the whole step (R55). -/
theorem step_of_fetch_error {s : State} {f : Fault} (h : fetch s = .error f) : step s = .fault f := by
  simp only [step, h, raise]

/-- Settles O8: the fetch is in range, and its opcode is high byte first, or it is not, and its fault is the step's. -/
theorem fetchIsBigEndianOrFaults : Obligations.FetchIsBigEndianOrFaults := by
  intro s
  constructor
  · intro hpc
    exact ⟨_, fetch_inRange s hpc, opcodeOfBytes_toNat _ _⟩
  · intro hpc
    have hfetch := fetch_outOfRange s hpc
    rw [max_memSize_eq_of_fetch_outOfRange hpc] at hfetch
    exact ⟨hfetch, step_of_fetch_error hfetch⟩

/-! ### FX55 and FX65 in range -/

/-- FX55 in range (R90): V0..VX stand in memory from `I`, and `PC` falls through. -/
theorem exec_storeRegs_inRange {x : RegIx} {s : State} (h : s.i.toNat + x.val ≤ 0x0FFF) :
    exec (.storeRegs x) s =
      .next ({ s with mem := s.mem.store s.i.toNat (s.regBytes x) } : State).advance :=
  s.storeAtI_inRange _ (by rw [s.length_regBytes]; omega)

/-- FX65 in range (R91): V0..VX are loaded, and `PC` falls through. -/
theorem exec_loadRegs_inRange {x : RegIx} {s : State} (h : s.i.toNat + x.val ≤ 0x0FFF) :
    exec (.loadRegs x) s = .next (s.loadRegList (regsUpTo x)).advance :=
  s.checked_inRange _ (.inr (by omega))

/-- A read of the stored block V0..VX (R39, R90): `V[r]` is the byte at the base plus `r`. -/
theorem State.read_store_regBytes (s : State) (m : Memory) (a : Nat) {x r : RegIx} (h : r.val ≤ x.val) :
    (m.store a (s.regBytes x)).read (a + r.val) = s.reg r := by
  have hlen : r.val < (s.regBytes x).length := by rw [s.length_regBytes]; omega
  rw [Memory.read_store_inside _ _ _ _ hlen, s.getElem_regBytes]

/-- Loading V0..VX (R91): these registers come from `I` on, the others are as before. -/
theorem State.reg_loadRegList_regsUpTo (s : State) (x r : RegIx) :
    (s.loadRegList (regsUpTo x)).reg r = if r.val ≤ x.val then s.byte (s.i.toNat + r.val) else s.reg r := by
  simp only [s.reg_loadRegList, mem_regsUpTo]

/-! ### What a store leaves for a load and for a fetch -/

/-- Settles O41: FX55 leaves `V[r]` at `I` plus `r`, where FX65 looks for it, for neither changes `I`. -/
theorem storedRegistersLoadBack : Obligations.StoredRegistersLoadBack := by
  intro x s v p hrange
  refine ⟨_, _, exec_storeRegs_inRange hrange, exec_loadRegs_inRange hrange, fun r => ?_⟩
  rw [State.reg_advance, State.reg_loadRegList_regsUpTo]
  split
  · next hr => exact s.read_store_regBytes s.mem s.i.toNat hr
  · rfl

/-- Settles O42: the fetch at `I` is in range, and the two bytes it reads are the stored `V[0]` and `V[1]`. -/
theorem storedCodeIsFetched : Obligations.StoredCodeIsFetched := by
  intro x s hx hrange
  have hfirst := s.read_store_regBytes s.mem s.i.toNat (r := 0) (Nat.zero_le x.val)
  have hsecond := s.read_store_regBytes s.mem s.i.toNat (r := 1) hx
  have hpc : s.i.toNat ≤ 0x0FFE := by omega
  refine ⟨_, _, exec_storeRegs_inRange hrange, fetch_inRange _ hpc, ?_⟩
  rw [opcodeOfBytes_toNat, ← hfirst, ← hsecond]
  rfl

end Sys2Proof.Machine

/-! ## The encoding: rows, decoder and encoder

The decoder against the table (30_encoding.md rules R46 to R53): a word in a row decodes to the row's instruction with the operands
of the word, and a word that decodes is the opcode of what it decodes to. -/

namespace Sys2Proof

/-! ### A word from its fields -/

section
variable {w : Word} {f d n : Nibble} {kk : Byte}

theorem formatNNN_fields (hf : fieldF w = f) : formatNNN f (fieldNNN w) = w := by
  apply BitVec.eq_of_toNat_eq
  rw [← hf, formatNNN_toNat, fieldF_toNat, fieldNNN_toNat]; omega

theorem formatXKK_fields (hf : fieldF w = f) (hkk : fieldKK w = kk) : formatXKK f (fieldX w) kk = w := by
  apply BitVec.eq_of_toNat_eq
  rw [← hf, ← hkk, formatXKK_toNat, fieldF_toNat, fieldX_val, fieldKK_toNat]; omega

theorem formatXYN_fields (hf : fieldF w = f) (hd : fieldYDigit w = d) (hn : fieldN w = n) :
    formatXYN f (fieldX w) d n = w := by
  apply BitVec.eq_of_toNat_eq
  rw [← hf, ← hd, ← hn, formatXYN_toNat, fieldF_toNat, fieldX_val, fieldYDigit_toNat, fieldN_toNat]; omega

end

/-! ### The words of a row -/

/-- The instruction of the row of `i` whose operands are the fields of `w` (R46, R47). -/
def Instr.withFields (i : Instr) (w : Word) : Instr :=
  match i with
  | .cls => .cls
  | .ret => .ret
  | .jp _ => .jp (fieldNNN w)
  | .call _ => .call (fieldNNN w)
  | .seImm _ _ => .seImm (fieldX w) (fieldKK w)
  | .sneImm _ _ => .sneImm (fieldX w) (fieldKK w)
  | .seReg _ _ _ => .seReg (fieldX w) (fieldY w) (fieldN w)
  | .ldImm _ _ => .ldImm (fieldX w) (fieldKK w)
  | .addImm _ _ => .addImm (fieldX w) (fieldKK w)
  | .ldReg _ _ => .ldReg (fieldX w) (fieldY w)
  | .orReg _ _ => .orReg (fieldX w) (fieldY w)
  | .andReg _ _ => .andReg (fieldX w) (fieldY w)
  | .xorReg _ _ => .xorReg (fieldX w) (fieldY w)
  | .addReg _ _ => .addReg (fieldX w) (fieldY w)
  | .subReg _ _ => .subReg (fieldX w) (fieldY w)
  | .shr _ _ => .shr (fieldX w) (fieldYDigit w)
  | .subnReg _ _ => .subnReg (fieldX w) (fieldY w)
  | .shl _ _ => .shl (fieldX w) (fieldYDigit w)
  | .sneReg _ _ _ => .sneReg (fieldX w) (fieldY w) (fieldN w)
  | .ldI _ => .ldI (fieldNNN w)
  | .jpV0 _ => .jpV0 (fieldNNN w)
  | .rnd _ _ => .rnd (fieldX w) (fieldKK w)
  | .drw _ _ _ => .drw (fieldX w) (fieldY w) (fieldN w)
  | .skp _ => .skp (fieldX w)
  | .sknp _ => .sknp (fieldX w)
  | .ldVxDt _ => .ldVxDt (fieldX w)
  | .ldVxK _ => .ldVxK (fieldX w)
  | .ldDtVx _ => .ldDtVx (fieldX w)
  | .ldStVx _ => .ldStVx (fieldX w)
  | .addI _ => .addI (fieldX w)
  | .ldF _ => .ldF (fieldX w)
  | .ldB _ => .ldB (fieldX w)
  | .storeRegs _ => .storeRegs (fieldX w)
  | .loadRegs _ => .loadRegs (fieldX w)

theorem matchWord_withFields (i : Instr) (w : Word) : (i.withFields w).matchWord = i.matchWord := by
  cases i <;> rfl

/-- The fields of the opcode of `i` are the operands of `i`. -/
theorem withFields_encode (i : Instr) : i.withFields (encode i) = i := by
  cases i <;> simp [Instr.withFields, encode]

section
variable {w mask mtch : Word}

/-- A mask that is all ones on a field keeps the field. -/
theorem extractLsb'_of_masked {k n : Nat} (h : w &&& mask = mtch) (hmask : mask.extractLsb' k n = BitVec.allOnes n) :
    w.extractLsb' k n = mtch.extractLsb' k n := by
  rw [← h, BitVec.extractLsb'_and, hmask, BitVec.and_allOnes]

theorem fieldF_of_masked (h : w &&& mask = mtch) (hmask : fieldF mask = BitVec.allOnes 4) : fieldF w = fieldF mtch :=
  extractLsb'_of_masked h hmask

theorem fieldN_of_masked (h : w &&& mask = mtch) (hmask : fieldN mask = BitVec.allOnes 4) : fieldN w = fieldN mtch :=
  extractLsb'_of_masked h hmask

theorem fieldKK_of_masked (h : w &&& mask = mtch) (hmask : fieldKK mask = BitVec.allOnes 8) :
    fieldKK w = fieldKK mtch :=
  extractLsb'_of_masked h hmask

end

/-- Every mask of the table keeps the whole high digit, the family (R49). -/
theorem fieldF_maskWord (i : Instr) : fieldF i.maskWord = BitVec.allOnes 4 := by
  cases i <;> simp only [Instr.maskWord] <;> rfl

section
variable {w : Word}

theorem decodeWord_family0 (hf : fieldF w = 0x0) : decodeWord w = decodeFamily0 w := by
  rw [decodeWord, hf]
  rfl

theorem decodeWord_family8 (hf : fieldF w = 0x8) : decodeWord w = decodeFamily8 w := by
  rw [decodeWord, hf]
  rfl

theorem decodeWord_familyE (hf : fieldF w = 0xE) : decodeWord w = decodeFamilyE w := by
  rw [decodeWord, hf]
  rfl

theorem decodeWord_familyF (hf : fieldF w = 0xF) : decodeWord w = decodeFamilyF w := by
  rw [decodeWord, hf]
  rfl

end

/-- A word in the row of `i` decodes to the instruction of that row with the operands of the word (R46, R47). -/
theorem decodeWord_of_inRow {i : Instr} {w : Word} (h : w &&& i.maskWord = i.matchWord) :
    decodeWord w = .ok (i.withFields w) := by
  have hf := fieldF_of_masked h (fieldF_maskWord i)
  cases i <;> simp only [Instr.maskWord, Instr.matchWord] at h hf
  case cls | ret =>
    obtain rfl : w = _ := BitVec.and_allOnes.symm.trans h
    rfl
  case jp | call | seImm | sneImm | seReg | ldImm | addImm | sneReg | ldI | jpV0 | rnd | drw =>
    rw [decodeWord, hf]
    rfl
  case ldReg | orReg | andReg | xorReg | addReg | subReg | shr | subnReg | shl =>
    rw [decodeWord_family8 hf, decodeFamily8, fieldN_of_masked h rfl]
    rfl
  case skp | sknp =>
    rw [decodeWord_familyE hf, decodeFamilyE, fieldKK_of_masked h rfl]
    rfl
  case ldVxDt | ldVxK | ldDtVx | ldStVx | addI | ldF | ldB | storeRegs | loadRegs =>
    rw [decodeWord_familyF hf, decodeFamilyF, fieldKK_of_masked h rfl]
    rfl

/-! ### What each family decodes to -/

section
variable {w : Word} {i : Instr}

theorem encode_of_decodeFamily0 (hf : fieldF w = 0x0) (h : decodeFamily0 w = .ok i) : encode i = w := by
  unfold decodeFamily0 at h
  split_ifs at h with hcls hret <;> cases h
  · rw [← formatNNN_fields hf, hcls]
    rfl
  · rw [← formatNNN_fields hf, hret]
    rfl

theorem encode_of_decodeFamily8 (hf : fieldF w = 0x8) (h : decodeFamily8 w = .ok i) : encode i = w := by
  unfold decodeFamily8 at h
  split at h <;> cases h <;> exact formatXYN_fields hf rfl ‹_›

theorem encode_of_decodeFamilyE (hf : fieldF w = 0xE) (h : decodeFamilyE w = .ok i) : encode i = w := by
  unfold decodeFamilyE at h
  split at h <;> cases h <;> exact formatXKK_fields hf ‹_›

theorem encode_of_decodeFamilyF (hf : fieldF w = 0xF) (h : decodeFamilyF w = .ok i) : encode i = w := by
  unfold decodeFamilyF at h
  split at h <;> cases h <;> exact formatXKK_fields hf ‹_›

end

/-- The high digits: the four families with a second discriminant, and the others by their format (R47, R49). -/
theorem family_cases : ∀ f : Nibble, f = 0x0 ∨ f = 0x8 ∨ f = 0xE ∨ f = 0xF ∨
    f ∈ [0x1, 0x2, 0xA, 0xB] ∨ f ∈ [0x3, 0x4, 0x6, 0x7, 0xC] ∨ f ∈ [0x5, 0x9, 0xD] := by
  decide

/-- THE DECODER (R49): families 0, 8, E and F have a decoder of their own; a word of any other is an instruction, the one it is
the opcode of. -/
theorem decodeWord_cases (w : Word) :
    (fieldF w = 0x0 ∧ decodeWord w = decodeFamily0 w) ∨ (fieldF w = 0x8 ∧ decodeWord w = decodeFamily8 w) ∨
    (fieldF w = 0xE ∧ decodeWord w = decodeFamilyE w) ∨ (fieldF w = 0xF ∧ decodeWord w = decodeFamilyF w) ∨
    (fieldF w ∉ [0x0, 0x8, 0xE, 0xF] ∧ ∃ i, decodeWord w = .ok i ∧ encode i = w) := by
  rcases family_cases (fieldF w) with hf | hf | hf | hf | hf | hf | hf
  · exact .inl ⟨hf, decodeWord_family0 hf⟩
  · exact .inr (.inl ⟨hf, decodeWord_family8 hf⟩)
  · exact .inr (.inr (.inl ⟨hf, decodeWord_familyE hf⟩))
  · exact .inr (.inr (.inr (.inl ⟨hf, decodeWord_familyF hf⟩)))
  all_goals
    refine .inr (.inr (.inr (.inr ?_)))
    simp only [List.mem_cons, List.not_mem_nil, or_false] at hf
  · rcases hf with hf | hf | hf | hf <;> rw [decodeWord, hf] <;> exact ⟨by decide, _, rfl, formatNNN_fields hf⟩
  · rcases hf with hf | hf | hf | hf | hf <;> rw [decodeWord, hf] <;>
      exact ⟨by decide, _, rfl, formatXKK_fields hf rfl⟩
  · rcases hf with hf | hf | hf <;> rw [decodeWord, hf] <;> exact ⟨by decide, _, rfl, formatXYN_fields hf rfl rfl⟩

theorem encode_of_decodeWord {w : Word} {i : Instr} (h : decodeWord w = .ok i) : encode i = w := by
  rcases decodeWord_cases w with ⟨hf, hd⟩ | ⟨hf, hd⟩ | ⟨hf, hd⟩ | ⟨hf, hd⟩ | ⟨-, j, hd, hj⟩ <;> rw [hd] at h
  · exact encode_of_decodeFamily0 hf h
  · exact encode_of_decodeFamily8 hf h
  · exact encode_of_decodeFamilyE hf h
  · exact encode_of_decodeFamilyF hf h
  · cases h
    exact hj

/-! ### The encoder -/

/-- The opcode of `i` lies in the row of `i` (R46). -/
theorem encode_inRow (i : Instr) : encode i &&& i.maskWord = i.matchWord := by
  cases i with
  | cls => exact Laws.EncodingInRow.cls
  | ret => exact Laws.EncodingInRow.ret
  | jp nnn => exact Laws.EncodingInRow.jp nnn
  | call nnn => exact Laws.EncodingInRow.call nnn
  | seImm x kk => exact Laws.EncodingInRow.seImm x kk
  | sneImm x kk => exact Laws.EncodingInRow.sneImm x kk
  | seReg x y ignored => exact Laws.EncodingInRow.seReg x y ignored
  | ldImm x kk => exact Laws.EncodingInRow.ldImm x kk
  | addImm x kk => exact Laws.EncodingInRow.addImm x kk
  | ldReg x y => exact Laws.EncodingInRow.ldReg x y
  | orReg x y => exact Laws.EncodingInRow.orReg x y
  | andReg x y => exact Laws.EncodingInRow.andReg x y
  | xorReg x y => exact Laws.EncodingInRow.xorReg x y
  | addReg x y => exact Laws.EncodingInRow.addReg x y
  | subReg x y => exact Laws.EncodingInRow.subReg x y
  | shr x ignored => exact Laws.EncodingInRow.shr x ignored
  | subnReg x y => exact Laws.EncodingInRow.subnReg x y
  | shl x ignored => exact Laws.EncodingInRow.shl x ignored
  | sneReg x y ignored => exact Laws.EncodingInRow.sneReg x y ignored
  | ldI nnn => exact Laws.EncodingInRow.ldI nnn
  | jpV0 nnn => exact Laws.EncodingInRow.jpV0 nnn
  | rnd x kk => exact Laws.EncodingInRow.rnd x kk
  | drw x y n => exact Laws.EncodingInRow.drw x y n
  | skp x => exact Laws.EncodingInRow.skp x
  | sknp x => exact Laws.EncodingInRow.sknp x
  | ldVxDt x => exact Laws.EncodingInRow.ldVxDt x
  | ldVxK x => exact Laws.EncodingInRow.ldVxK x
  | ldDtVx x => exact Laws.EncodingInRow.ldDtVx x
  | ldStVx x => exact Laws.EncodingInRow.ldStVx x
  | addI x => exact Laws.EncodingInRow.addI x
  | ldF x => exact Laws.EncodingInRow.ldF x
  | ldB x => exact Laws.EncodingInRow.ldB x
  | storeRegs x => exact Laws.EncodingInRow.storeRegs x
  | loadRegs x => exact Laws.EncodingInRow.loadRegs x

/-- The opcode of `i` is in the row of `i`, so it decodes to the instruction of that row with its own operands: `i`. -/
theorem decodeWord_encode (i : Instr) : decodeWord (encode i) = .ok i := by
  rw [decodeWord_of_inRow (encode_inRow i), withFields_encode]

/-- A word is its two bytes (R32, R45). -/
theorem opcodeOfBytes_high_low (w : Word) : opcodeOfBytes (opcodeHigh w) (opcodeLow w) = w :=
  (BitVec.extractLsb'_append_extractLsb'_eq_extractLsb' (start₁ := 0) rfl).trans BitVec.extractLsb'_eq_self

theorem decode_encodeBytes (i : Instr) (rest : List Byte) : decode (encodeBytes i ++ rest) = .ok (i, rest) := by
  simp only [encodeBytes, List.cons_append, List.nil_append, decode, opcodeOfBytes_high_low, decodeWord_encode]

/-- Settles O1: an opcode is in its row, whose words decode with their operands, and two bytes in front are the opcode. -/
theorem decodeOfEncodeIsTheInstruction : Obligations.DecodeOfEncodeIsTheInstruction :=
  fun i => ⟨decodeWord_encode i, decode_encodeBytes i⟩

/-- Settles O2: the decoder keeps every field of the word, in each family. -/
theorem encodeOfDecodeIsTheWord : Obligations.EncodeOfDecodeIsTheWord :=
  fun _ _ => encode_of_decodeWord

/-! ### Rows by match and mask -/

/-- The mask of the row that a match word names: the family decides how much of the rest is discriminant (R49 to R53). -/
def maskOfMatch (m : Word) : Word :=
  if fieldF m = 0x0 then 0xFFFF
  else if fieldF m = 0x8 then 0xF00F
  else if fieldF m = 0xE ∨ fieldF m = 0xF then 0xF0FF
  else 0xF000

theorem maskOfMatch_matchWord (i : Instr) : maskOfMatch i.matchWord = i.maskWord := by
  cases i <;> simp only [Instr.matchWord, Instr.maskWord] <;> rfl

/-- Settles O3: a word of the row decodes with its own fields; a word that decodes is an opcode, which is in its row, and the
match word gives the mask. -/
theorem decodesByMatchAndMask : Obligations.DecodesByMatchAndMask := by
  intro i w
  constructor
  · intro h
    exact ⟨_, decodeWord_of_inRow h, matchWord_withFields i w⟩
  · rintro ⟨j, hd, hj⟩
    have hmask : j.maskWord = i.maskWord := by rw [← maskOfMatch_matchWord, hj, maskOfMatch_matchWord]
    rw [← encode_of_decodeWord hd, ← hmask, encode_inRow, hj]

/-! ### The invalid opcodes -/

section
variable (w : Word)

theorem decodeFamily0_error_iff : (∃ r, decodeFamily0 w = .error r) ↔ fieldNNN w ≠ 0x0E0 ∧ fieldNNN w ≠ 0x0EE := by
  unfold decodeFamily0
  split
  · exact iff_of_false nofun fun ⟨hcls, _⟩ => hcls ‹_›
  · split
    · exact iff_of_false nofun fun ⟨_, hret⟩ => hret ‹_›
    · exact iff_of_true ⟨_, rfl⟩ ⟨‹_›, ‹_›⟩

/-- The low digits that are none of the nine of R51. -/
theorem mem_invalidDigits_iff : ∀ n : Nibble,
    n ∈ [0x8, 0x9, 0xA, 0xB, 0xC, 0xD, 0xF] ↔ n ∉ [0x0, 0x1, 0x2, 0x3, 0x4, 0x5, 0x6, 0x7, 0xE] := by
  decide

theorem decodeFamily8_error_iff :
    (∃ r, decodeFamily8 w = .error r) ↔ fieldN w ∈ [0x8, 0x9, 0xA, 0xB, 0xC, 0xD, 0xF] := by
  rw [mem_invalidDigits_iff]
  unfold decodeFamily8
  split <;> simp_all

theorem decodeFamilyE_error_iff : (∃ r, decodeFamilyE w = .error r) ↔ fieldKK w ∉ [0x9E, 0xA1] := by
  unfold decodeFamilyE
  split <;> simp_all

theorem decodeFamilyF_error_iff :
    (∃ r, decodeFamilyF w = .error r) ↔ fieldKK w ∉ [0x07, 0x0A, 0x15, 0x18, 0x1E, 0x29, 0x33, 0x55, 0x65] := by
  unfold decodeFamilyF
  split <;> simp_all

end

/-- Settles O4: in the four families by their discriminants, and every word of the others is an instruction. -/
theorem invalidOpcodesAreThoseOfFourFamilies : Obligations.InvalidOpcodesAreThoseOfFourFamilies := by
  intro w
  rcases decodeWord_cases w with ⟨hf, hd⟩ | ⟨hf, hd⟩ | ⟨hf, hd⟩ | ⟨hf, hd⟩ | ⟨hf, i, hd, -⟩ <;> rw [hd]
  · rw [decodeFamily0_error_iff]
    simp [hf]
  · rw [decodeFamily8_error_iff]
    simp [hf]
  · rw [decodeFamilyE_error_iff]
    simp [hf]
  · rw [decodeFamilyF_error_iff]
    simp [hf]
  · refine iff_of_false nofun ?_
    rintro (⟨h, -⟩ | ⟨h, -⟩ | ⟨h, -⟩ | ⟨h, -⟩) <;> exact hf (by simp [h])

/-- Settles O5: each word is evaluated by the decoder. -/
theorem wordsOfTheExamplesDecode : Obligations.WordsOfTheExamplesDecode := by
  unfold Obligations.WordsOfTheExamplesDecode
  decide

end Sys2Proof

/-! ## Execution: the ignored digit, the step, and no refusal -/

namespace Sys2Proof.Machine

/-! ### The canonical form -/

theorem wellFormed_canonical (i : Instr) : i.canonical.wellFormed = true := by
  cases i <;> rfl

/-- No meaning reads the ignored digit (R54, R56), and an instruction without one is its own canonical form. -/
theorem exec_canonical (i : Instr) (s : State) : exec i s = exec i.canonical s := by
  cases i <;> rfl

/-- Settles O6: the canonical form differs in the ignored digit alone, which no arm of `exec` reads. -/
theorem ignoredDigitHasNoEffect : Obligations.IgnoredDigitHasNoEffect :=
  fun i s => ⟨exec_canonical i s, wellFormed_canonical i⟩

/-! ### The step of a decoded instruction -/

theorem step_of_decoded {s : State} {w : Word} {i : Instr} (hf : fetch s = .ok w) (hd : decodeWord w = .ok i) :
    step s = exec i s := by
  simp only [step, hf, hd]

/-- The fetch by the number of its word (R32). -/
theorem fetch_eq_of_toNat {s : State} {w : Word} (hpc : s.pc.toNat ≤ 0x0FFE)
    (hw : w.toNat = 256 * (s.byte s.pc.toNat).toNat + (s.byte (s.pc.toNat + 1)).toNat) : fetch s = .ok w := by
  rw [fetch_inRange s hpc]
  exact congrArg Except.ok (BitVec.eq_of_toNat_eq ((opcodeOfBytes_toNat _ _).trans hw.symm))

/-- Settles O7: the fetch gives `w`, and the step is what `w` decodes to. -/
theorem stepRunsTheDecodedInstruction : Obligations.StepRunsTheDecodedInstruction :=
  fun _ _ _ hpc hw hd => step_of_decoded (fetch_eq_of_toNat hpc hw) hd

/-! ### No refusal -/

section
variable {s : State} {r : Refusal}

theorem State.checked_ne_refused {len : Nat} {t : State} : s.checked len (.next t) ≠ .refused r := by
  rcases s.checked_cases len (.next t) with ⟨-, hc⟩ | ⟨-, hc⟩ <;> rw [hc] <;> nofun

theorem execRet_ne_refused : execRet s ≠ .refused r := by
  unfold execRet
  rcases s.pop_cases with ⟨_, _, -, -, hpop⟩ | ⟨-, hpop⟩ <;> rw [hpop] <;> nofun

theorem execCall_ne_refused {nnn : Addr12} : execCall nnn s ≠ .refused r := by
  unfold execCall
  rcases s.push_cases s.pc with ⟨_, hpush⟩ | ⟨-, hpush⟩ <;> rw [hpush] <;> nofun

theorem execLdVxK_ne_refused {x : RegIx} : execLdVxK x s ≠ .refused r := by
  unfold execLdVxK
  split <;> nofun

/-- Every instruction has a meaning in every state: a next state or a fault. -/
theorem exec_ne_refused {i : Instr} : exec i s ≠ .refused r := by
  cases i with
  | ret => exact execRet_ne_refused
  | call => exact execCall_ne_refused
  | ldVxK => exact execLdVxK_ne_refused
  | drw | ldB | storeRegs | loadRegs => exact State.checked_ne_refused
  | cls | jp | jpV0 | seImm | sneImm | seReg | sneReg | skp | sknp | ldImm | addImm | ldReg | orReg | andReg | xorReg
  | addReg | subReg | shr | subnReg | shl | ldI | rnd | ldVxDt | ldDtVx | ldStVx | addI | ldF => nofun

end

/-- Settles O12: a step is a fault of the fetch, the passing over of an invalid opcode, or an instruction. -/
theorem noStepIsRefused : Obligations.NoStepIsRefused := by
  intro s r
  rcases step_cases s with ⟨-, hfault⟩ | ⟨_, _, -, -, -, hskip⟩ | ⟨_, _, -, -, -, hexec⟩
  · rw [hfault]
    nofun
  · rw [hskip]
    nofun
  · rw [hexec]
    exact exec_ne_refused

end Sys2Proof.Machine

/-! ## Control transfer: jumps, CALL and RET

The four instructions of 40_control_transfer.md. Their `PC` and their frame are those that every instruction has
(`exec_pcRule`, `exec_keepsAllBut`); what is left to say is when they complete and what they leave on the stack. -/

namespace Sys2Proof.Machine

/-- Every row of the table decodes to its instruction, with the fields of the word as operands (R46, R47). -/
theorem rowDecodes (i : Instr) : RowDecodes i.maskWord i.matchWord i.withFields :=
  fun _ => decodeWord_of_inRow

/-! ### CALL and RET -/

section
variable {s : State}

theorem exec_call_of_push {nnn : Addr12} {t : State} (h : s.push s.pc = .ok t) :
    exec (.call nnn) s = .next (t.setPc (addrOfNNN nnn)) := by
  simp only [exec, execCall, h]

theorem exec_ret_of_pop {a : Word} {t : State} (h : s.pop = .ok (a, t)) : exec .ret s = .next (t.setPc (a + 2)) := by
  simp only [exec, execRet, h]

/-- 2NNN with a free slot (R63): the slot at `SP` holds the address of the CALL, every other slot is as before. -/
theorem exec_call_completes (nnn : Addr12) (hlt : s.sp.val < 16) :
    ∃ t, exec (.call nnn) s = .next t ∧ t.sp.val = s.sp.val + 1 ∧
      ∀ k : RegIx, t.slot k = if k.val = s.sp.val then s.pc else s.slot k := by
  rcases s.push_cases s.pc with ⟨_, hpush⟩ | ⟨hfull, -⟩
  · refine ⟨_, exec_call_of_push hpush, rfl, fun k => ?_⟩
    simp only [State.slot, State.setPc_stk, Vector.getElem_set, eq_comm]
  · omega

/-- 2NNN with all 16 slots live (R63, R113). -/
theorem exec_call_overflows (nnn : Addr12) (hfull : s.sp.val = 16) :
    exec (.call nnn) s = .fault (.stackOverflow s.pc) := by
  rcases s.push_cases s.pc with ⟨_, -⟩ | ⟨-, hpush⟩
  · omega
  · simp only [exec, execCall, hpush, raise]

/-- 00EE with a live slot (R61): one live slot less, and no slot changes. -/
theorem exec_ret_completes {k : RegIx} (hk : k.val + 1 = s.sp.val) :
    ∃ t, exec .ret s = .next t ∧ t.sp.val = k.val ∧ ∀ j, t.slot j = s.slot j := by
  rcases s.pop_cases with ⟨j, sp, hj, hsp, hpop⟩ | ⟨hempty, -⟩
  · have hspk : sp.val = k.val := by omega
    exact ⟨_, exec_ret_of_pop hpop, hspk, fun _ => rfl⟩
  · omega

/-- 00EE with no live slot (R61, R114). -/
theorem exec_ret_underflows (hempty : s.sp.val = 0) : exec .ret s = .fault (.stackUnderflow s.pc) := by
  rcases s.pop_cases with ⟨_, _, _, -, -⟩ | ⟨-, hpop⟩
  · omega
  · simp only [exec, execRet, hpop, raise]

end

/-- Settles O24: the push overflows or fills the slot at `SP`; `PC` and the frame are those of every CALL. -/
theorem callPushesItsOwnAddress : Obligations.CallPushesItsOwnAddress := by
  refine ⟨rowDecodes (.call 0), fun nnn s => ⟨exec_call_overflows nnn, fun hlt => ?_⟩⟩
  obtain ⟨t, hexec, hsp, hslot⟩ := exec_call_completes nnn hlt
  exact ⟨t, hexec, hsp, exec_pcRule hexec, hslot, exec_keepsAllBut hexec⟩

/-- Settles O25: the pop underflows or gives the most recent slot, to which the rule of `PC` adds 2. -/
theorem returnGoesPastTheCall : Obligations.ReturnGoesPastTheCall := by
  refine ⟨rowDecodes .ret, fun s => ⟨exec_ret_underflows, fun k hk => ?_⟩⟩
  obtain ⟨t, hexec, hsp, hslot⟩ := exec_ret_completes hk
  have hpc : t.pc = s.slot k + 2 := exec_pcRule hexec k hk
  exact ⟨t, hexec, hsp, congrArg BitVec.toNat hpc, hslot, exec_keepsAllBut hexec⟩

/-- Settles O26: the slot the RET pops is the one the CALL filled with its own address, and neither changes anything but `PC`
and the stack. -/
theorem callThenReturnComesBack : Obligations.CallThenReturnComesBack := by
  intro nnn s p hlt
  obtain ⟨t, hcall, hsp, hslot⟩ := exec_call_completes nnn hlt
  have hk : (⟨s.sp.val, hlt⟩ : RegIx).val + 1 = (t.setPc p).sp.val := hsp.symm
  obtain ⟨u, hret, husp, -⟩ := exec_ret_completes hk
  have hcallFrame : KeepsAllBut [] [.stack] s t := exec_keepsAllBut hcall
  have hretFrame : KeepsAllBut [] [.stack] (t.setPc p) u := exec_keepsAllBut hret
  have hpushed : (t.setPc p).slot ⟨s.sp.val, hlt⟩ = s.pc := (hslot _).trans (if_pos rfl)
  have hpc : u.pc = (t.setPc p).slot ⟨s.sp.val, hlt⟩ + 2 := exec_pcRule hret _ hk
  exact ⟨t, u, hcall, hret, hpushed ▸ hpc, Fin.ext husp, (hcallFrame.trans (keepsAllBut_setPc t p)).trans hretFrame⟩

/-! ### Jumps -/

/-- The outcome record of an instruction that completes and does not wait for a key (R111). -/
theorem stepReport_of_completed {s t : State} {w : Word} {i : Instr} (hf : fetch s = .ok w) (hd : decodeWord w = .ok i)
    (hexec : exec i s = .next t) (hwait : waitsForKey i s = false) : stepReport s = reportOk := by
  simp only [stepReport, hf, hd, hexec, hwait, Bool.false_eq_true, if_false]

/-- 1NNN at its own target (R62, R137) changes nothing. -/
theorem exec_jp_self {nnn : Addr12} {s : State} (h : addrOfNNN nnn = s.pc) : exec (.jp nnn) s = .next s :=
  congrArg (fun a => Host.Outcome.next (s.setPc a)) h

/-- Settles O27: the word is the opcode of the jump to the low 12 bits of `PC`, which are all of a `PC` that can be fetched
from. -/
theorem jumpToItselfChangesNothing : Obligations.JumpToItselfChangesNothing := by
  intro s hpc hword
  have hlow : (s.pc.setWidth 12).toNat = s.pc.toNat := by rw [BitVec.toNat_setWidth]; omega
  have hself : addrOfNNN (s.pc.setWidth 12) = s.pc := BitVec.eq_of_toNat_eq ((addrOfNNN_toNat _).trans hlow)
  have hopcode : (encode (.jp (s.pc.setWidth 12))).toNat = 0x1000 + s.pc.toNat := by
    rw [encode, formatNNN_toNat, hlow]
    rfl
  have hfetch := fetch_eq_of_toNat hpc (hopcode.trans hword.symm)
  have hdecode := decodeWord_encode (.jp (s.pc.setWidth 12))
  have hexec := exec_jp_self hself
  exact ⟨(step_of_decoded hfetch hdecode).trans hexec, stepReport_of_completed hfetch hdecode hexec rfl⟩

/-- Settles O23: both jumps complete in every state, with the `PC` and the frame that every jump has. -/
theorem jumpsSetThePc : Obligations.JumpsSetThePc := by
  refine ⟨rowDecodes (.jp 0), rowDecodes (.jpV0 0), fun nnn s => ⟨?_, ?_⟩⟩
  · have hexec : exec (.jp nnn) s = .next (s.setPc (addrOfNNN nnn)) := rfl
    exact ⟨_, hexec, exec_pcRule hexec, exec_keepsAllBut hexec⟩
  · have hexec : exec (.jpV0 nnn) s = .next (s.setPc (addrOfNNN nnn + zextByte (s.reg 0))) := rfl
    exact ⟨_, hexec, exec_pcRule hexec, exec_keepsAllBut hexec⟩

end Sys2Proof.Machine

/-! ## Skips

The six instructions of 41_skips.md end in `State.skipIf`, which writes nothing but `PC`, and what stands in `PC` is the
table's rule for each of them (`exec_pcRule`). -/

namespace Sys2Proof.Machine

/-- R65 for an instruction that ends in a skip: the next state is the state before with the new `PC`. -/
theorem exec_eq_of_skipIf {i : Instr} {s : State} {c : Bool} {p : Word} (hexec : exec i s = .next (s.skipIf c))
    (hpc : (s.skipIf c).pc = p) : exec i s = .next { s with pc := p } := by
  have honlyPc : s.skipIf c = { s with pc := (s.skipIf c).pc } := by rw [State.skipIf_pc, State.skipIf_eq]
  rw [hexec, honlyPc, hpc]

/-- Settles O28: both are skips, on `V[X] = KK` and on its negation. -/
theorem skipsOnAnImmediate : Obligations.SkipsOnAnImmediate := by
  refine ⟨rowDecodes (.seImm 0 0), rowDecodes (.sneImm 0 0), fun x kk s => ⟨?_, ?_⟩⟩
  · have hexec : exec (.seImm x kk) s = .next (s.skipIf (s.reg x == kk)) := rfl
    exact exec_eq_of_skipIf hexec (exec_pcRule hexec)
  · have hexec : exec (.sneImm x kk) s = .next (s.skipIf (s.reg x != kk)) := rfl
    exact exec_eq_of_skipIf hexec (exec_pcRule hexec)

/-- Settles O29: both are skips, on `V[X] = V[Y]` and on its negation, in which the ignored digit does not occur. -/
theorem skipsOnTwoRegisters : Obligations.SkipsOnTwoRegisters := by
  refine ⟨rowDecodes (.seReg 0 0 0), rowDecodes (.sneReg 0 0 0), fun x y ignored s => ⟨?_, ?_⟩⟩
  · have hexec : exec (.seReg x y ignored) s = .next (s.skipIf (s.reg x == s.reg y)) := rfl
    exact exec_eq_of_skipIf hexec (exec_pcRule hexec)
  · have hexec : exec (.sneReg x y ignored) s = .next (s.skipIf (s.reg x != s.reg y)) := rfl
    exact exec_eq_of_skipIf hexec (exec_pcRule hexec)

/-- Settles O30: both are skips on the key that the low four bits of `V[X]` name, and the rule of `PC` is about that key. -/
theorem skipsOnAKey : Obligations.SkipsOnAKey := by
  refine ⟨rowDecodes (.skp 0), rowDecodes (.sknp 0), fun x k s hk => ⟨?_, ?_⟩⟩
  · have hexec : exec (.skp x) s = .next (s.skipIf (s.keyDown (keyIndex (s.reg x)))) := rfl
    exact exec_eq_of_skipIf hexec (exec_pcRule hexec k hk)
  · have hexec : exec (.sknp x) s = .next (s.skipIf (!s.keyDown (keyIndex (s.reg x)))) := rfl
    exact exec_eq_of_skipIf hexec (exec_pcRule hexec k hk)

end Sys2Proof.Machine

/-! ## Register load and arithmetic

The eleven instructions of 42_register_alu.md complete in every state and end in `State.result` or, where they set a flag, in
`State.flaggedResult` (R72). One lemma for each ending says which registers it writes and that `PC` falls through; what is left
to say of an instruction is the number or the bits of its result and of its flag. -/

namespace Sys2Proof.Machine

/-! ### What stands in `V[X]` -/

theorem State.reg_result_same (s : State) (x : RegIx) (r : Byte) : (s.result x r).reg x = r := by
  rw [State.reg_result, if_pos rfl]

/-- With another destination than VF the flag does not overwrite the result (R72). -/
theorem State.reg_flaggedResult_same (s : State) {x : RegIx} (hx : x ≠ vf) (r f : Byte) : (s.flaggedResult x r f).reg x = r := by
  rw [State.reg_flaggedResult, if_neg hx, if_pos rfl]

/-! ### The instructions with a flag -/

/-- R72 for an instruction that ends in a result and a flag: the flag is in VF, the result in `V[X]` unless X is F, and
nothing else changes but `PC`, which falls through. -/
theorem exec_completes_of_flaggedResult {i : Instr} {s : State} {x : RegIx} {r f : Byte} {value flag : Nat}
    (hexec : exec i s = .next (s.flaggedResult x r f)) (hvalue : r.toNat = value) (hflag : f.toNat = flag) :
    ∃ t, exec i s = .next t ∧ (t.reg 15).toNat = flag ∧ (x ≠ 15 → (t.reg x).toNat = value) ∧ t.pc = s.pc + 2 ∧
      KeepsAllBut [x, 15] [] s t := by
  have hvf : (s.flaggedResult x r f).reg 15 = f := s.vf_flaggedResult x r f
  refine ⟨_, hexec, (congrArg BitVec.toNat hvf).trans hflag, fun hx => ?_, s.flaggedResult_pc x r f, ?_⟩
  · rw [s.reg_flaggedResult_same hx, hvalue]
  · exact keepsAllBut_flaggedResult List.mem_cons_self (List.mem_cons_of_mem x List.mem_cons_self) s r f

/-- Settles O33: the carry is computed from the operands as read and written after the sum. -/
theorem addRegistersSetsTheCarry : Obligations.AddRegistersSetsTheCarry :=
  ⟨rowDecodes (.addReg 0 0), fun _ _ _ =>
    exec_completes_of_flaggedResult rfl (sumByte_toNat _ _) (carryFlag_toNat _ _)⟩

/-- Settles O34: NOT borrow is computed from the operands as read and written after the difference. -/
theorem subtractionSetsNotBorrow : Obligations.SubtractionSetsNotBorrow :=
  ⟨rowDecodes (.subReg 0 0), fun _ _ _ =>
    exec_completes_of_flaggedResult rfl (differenceByte_toNat _ _) (notBorrowFlag_toNat _ _)⟩

/-- Settles O35: the difference and the NOT borrow of 8XY5, with `V[Y]` first. -/
theorem reverseSubtractionExchangesOperands : Obligations.ReverseSubtractionExchangesOperands :=
  ⟨rowDecodes (.subnReg 0 0), fun _ _ _ =>
    exec_completes_of_flaggedResult rfl (differenceByte_toNat _ _) (notBorrowFlag_toNat _ _)⟩

/-- Settles O36: bit 0 is the remainder by 2 and bit 7 the quotient by 128, and neither shift reads the ignored digit. -/
theorem shiftsSetTheBitShiftedOut : Obligations.ShiftsSetTheBitShiftedOut := by
  refine ⟨rowDecodes (.shr 0 0), rowDecodes (.shl 0 0), fun x ignored s => ⟨?_, ?_⟩⟩
  · exact exec_completes_of_flaggedResult rfl (shiftedRight_toNat _) (rightBitFlag_toNat _)
  · exact exec_completes_of_flaggedResult rfl (shiftedLeft_toNat _) (leftBitFlag_toNat _)

/-! ### The instructions without a flag -/

/-- R72 for an instruction that ends in a result alone: `P` says what that result is. Nothing changes but `V[X]`, and VF only
where X is F, and `PC`, which falls through. -/
theorem exec_completes_of_result {i : Instr} {s : State} {x : RegIx} {r : Byte} {P : Byte → Prop}
    (hexec : exec i s = .next (s.result x r)) (hresult : P r) :
    ∃ t, exec i s = .next t ∧ P (t.reg x) ∧ t.pc = s.pc + 2 ∧ KeepsAllBut [x] [] s t := by
  refine ⟨_, hexec, ?_, s.result_pc x r, keepsAllBut_result List.mem_cons_self s r⟩
  rw [s.reg_result_same]
  exact hresult

/-- Settles O31: both end in a result in `V[X]`, the byte KK or the sum mod 256. -/
theorem loadAndAddImmediate : Obligations.LoadAndAddImmediate := by
  refine ⟨rowDecodes (.ldImm 0 0), rowDecodes (.addImm 0 0), fun x kk s => ⟨?_, ?_⟩⟩
  · exact exec_completes_of_result (P := fun v => v = kk) rfl rfl
  · exact exec_completes_of_result (P := fun v => v.toNat = ((s.reg x).toNat + kk.toNat) % 256) rfl (sumByte_toNat _ _)

/-- Settles O32: each ends in a result in `V[X]`, the copy or the bitwise operation, which is taken bit by bit. -/
theorem movesAndLogicLeaveVf : Obligations.MovesAndLogicLeaveVf := by
  refine ⟨rowDecodes (.ldReg 0 0), rowDecodes (.orReg 0 0), rowDecodes (.andReg 0 0), rowDecodes (.xorReg 0 0),
    fun x y s => ⟨?_, ?_, ?_, ?_⟩⟩
  · exact exec_completes_of_result (P := fun v => v = s.reg y) rfl rfl
  · exact exec_completes_of_result (P := fun v => ∀ b, v.getLsbD b = ((s.reg x).getLsbD b || (s.reg y).getLsbD b)) rfl
      fun _ => BitVec.getLsbD_or
  · exact exec_completes_of_result (P := fun v => ∀ b, v.getLsbD b = ((s.reg x).getLsbD b && (s.reg y).getLsbD b)) rfl
      fun _ => BitVec.getLsbD_and
  · exact exec_completes_of_result (P := fun v => ∀ b, v.getLsbD b = ((s.reg x).getLsbD b ^^ (s.reg y).getLsbD b)) rfl
      fun _ => BitVec.getLsbD_xor

end Sys2Proof.Machine

/-! ## Index register and memory

The six instructions of 43_index_memory.md. Three end in `State.setI`; two store a block from `I` and one loads a block, and each
of these is either in range or faults as a whole (R36). Their `PC` and their frame are those that every instruction has
(`exec_pcRule`, `exec_keepsAllBut`). -/

namespace Sys2Proof.Machine

/-! ### The index register -/

/-- R86 to R88 for an instruction that ends in a write of `I`: nothing else changes but `PC`, which falls through. -/
theorem exec_completes_of_setI {i : Instr} {s : State} {a : Word} {value : Nat} (hexec : exec i s = .next (s.setI a).advance)
    (hvalue : a.toNat = value) :
    ∃ t, exec i s = .next t ∧ t.i.toNat = value ∧ t.pc = s.pc + 2 ∧ KeepsAllBut [] [.i] s t :=
  ⟨_, hexec, hvalue, rfl, (keepsAllBut_setI List.mem_cons_self s a).trans (keepsAllBut_advance _)⟩

theorem add_zextByte_toNat (a : Word) (b : Byte) : (a + zextByte b).toNat = (a.toNat + b.toNat) % 65536 := by
  rw [BitVec.toNat_add, zextByte_toNat]

/-- Settles O37: each ends in a write of `I`, of the immediate, the sum mod 2^16 or the address of the glyph. -/
theorem indexRegisterIsSet : Obligations.IndexRegisterIsSet := by
  refine ⟨rowDecodes (.ldI 0), rowDecodes (.addI 0), rowDecodes (.ldF 0), fun nnn x s => ⟨?_, ?_, ?_⟩⟩
  · exact exec_completes_of_setI rfl (addrOfNNN_toNat nnn)
  · exact exec_completes_of_setI rfl (add_zextByte_toNat _ _)
  · exact exec_completes_of_setI rfl (glyphAddress_toNat _)

/-! ### FX33 -/

theorem length_bcdDigits (b : Byte) : (bcdDigits b).length = 3 := rfl

/-- FX33 in range (R89): the three digits stand in memory from `I`, and `PC` falls through. -/
theorem exec_ldB_inRange {x : RegIx} {s : State} (h : s.i.toNat ≤ 0x0FFD) :
    exec (.ldB x) s = .next ({ s with mem := s.mem.store s.i.toNat (bcdDigits (s.reg x)) } : State).advance :=
  s.storeAtI_inRange _ (by rw [length_bcdDigits]; omega)

/-- FX33 out of range (R89, R115). -/
theorem exec_ldB_outOfRange {x : RegIx} {s : State} (h : 0x0FFD < s.i.toNat) :
    exec (.ldB x) s = .fault (.addressError .data (max s.i.toNat 0x1000) s.pc) :=
  s.storeAtI_outOfRange _ (Nat.zero_lt_succ 2) (by rw [length_bcdDigits]; omega)

/-- A digit is at most the byte it is a digit of, so it fits in a byte (R89). -/
theorem toNat_ofNat_of_le_byte {d : Nat} {b : Byte} (h : d ≤ b.toNat) : (BitVec.ofNat 8 d).toNat = d :=
  (BitVec.toNat_ofNat d 8).trans (Nat.mod_eq_of_lt (h.trans_lt b.isLt))

/-- A read of the three stored digits (R39, R89): hundreds, tens and units from the base on. -/
theorem Memory.read_store_bcdDigits (m : Memory) (a : Nat) (b : Byte) :
    ((m.store a (bcdDigits b)).read a).toNat = b.toNat / 100 ∧
      ((m.store a (bcdDigits b)).read (a + 1)).toNat = b.toNat / 10 % 10 ∧
      ((m.store a (bcdDigits b)).read (a + 2)).toNat = b.toNat % 10 := by
  have stored : ∀ k (hk : k < 3), (m.store a (bcdDigits b)).read (a + k) = (bcdDigits b)[k] :=
    m.read_store_inside a (bcdDigits b)
  have hundreds := stored 0 (by decide)
  have tens := stored 1 (by decide)
  have units := stored 2 (by decide)
  refine ⟨(congrArg BitVec.toNat hundreds).trans ?_, (congrArg BitVec.toNat tens).trans ?_,
    (congrArg BitVec.toNat units).trans ?_⟩
  · exact toNat_ofNat_of_le_byte (Nat.div_le_self _ _)
  · exact toNat_ofNat_of_le_byte ((Nat.mod_le _ _).trans (Nat.div_le_self _ _))
  · exact toNat_ofNat_of_le_byte (Nat.mod_le _ _)

/-- Settles O38: out of range nothing is stored, and in range the block of three digits is all that changes in memory. -/
theorem storesThreeDecimalDigits : Obligations.StoresThreeDecimalDigits := by
  refine ⟨rowDecodes (.ldB 0), fun x s => ⟨exec_ldB_outOfRange, fun hrange => ?_⟩⟩
  have hexec := exec_ldB_inRange (x := x) hrange
  obtain ⟨hundreds, tens, units⟩ := s.mem.read_store_bcdDigits s.i.toNat (s.reg x)
  have others := s.mem.read_store_outside s.i.toNat (bcdDigits (s.reg x))
  exact ⟨_, hexec, hundreds, tens, units, others, exec_pcRule hexec, exec_keepsAllBut hexec⟩

/-! ### FX55 and FX65 -/

/-- FX55 out of range (R90, R115). -/
theorem exec_storeRegs_outOfRange {x : RegIx} {s : State} (h : 0x0FFF < s.i.toNat + x.val) :
    exec (.storeRegs x) s = .fault (.addressError .data (max s.i.toNat 0x1000) s.pc) :=
  s.storeAtI_outOfRange _ (by rw [s.length_regBytes]; omega) (by rw [s.length_regBytes]; omega)

/-- FX65 out of range (R91, R115). -/
theorem exec_loadRegs_outOfRange {x : RegIx} {s : State} (h : 0x0FFF < s.i.toNat + x.val) :
    exec (.loadRegs x) s = .fault (.addressError .data (max s.i.toNat 0x1000) s.pc) :=
  s.checked_outOfRange _ (Nat.zero_lt_succ x.val) (by omega)

/-- A read past either end of the stored block V0..VX (R39, R90). -/
theorem State.read_store_regBytes_outside (s : State) (m : Memory) (a : Nat) {x : RegIx} {b : Nat}
    (h : b < a ∨ a + x.val < b) : (m.store a (s.regBytes x)).read b = m.read b :=
  m.read_store_outside a _ b (by rw [s.length_regBytes]; omega)

/-- Settles O39: out of range nothing is stored, and in range the block V0..VX is all that changes in memory. -/
theorem storesRegistersAtI : Obligations.StoresRegistersAtI := by
  refine ⟨rowDecodes (.storeRegs 0), fun x s => ⟨exec_storeRegs_outOfRange, fun hrange => ?_⟩⟩
  have hexec := exec_storeRegs_inRange hrange
  exact ⟨_, hexec, fun _ => s.read_store_regBytes s.mem s.i.toNat, fun _ => s.read_store_regBytes_outside s.mem s.i.toNat,
    exec_pcRule hexec, exec_keepsAllBut hexec⟩

/-- Settles O40: out of range nothing is loaded, and in range V0..VX come from memory; no item is among what FX65 writes. -/
theorem loadsRegistersFromI : Obligations.LoadsRegistersFromI := by
  refine ⟨rowDecodes (.loadRegs 0), fun x s => ⟨exec_loadRegs_outOfRange, fun hrange => ?_⟩⟩
  have hexec := exec_loadRegs_inRange hrange
  obtain ⟨-, items⟩ := exec_keepsAllBut hexec
  exact ⟨_, hexec, s.reg_loadRegList_regsUpTo x, exec_pcRule hexec, fun it => items it List.not_mem_nil⟩

end Sys2Proof.Machine

/-! ## Random number, timers and key wait

The five instructions of 44_random_timers_keys.md. Their `PC` and their frame are those that every instruction has
(`exec_pcRule`, `exec_keepsAllBut`); what is left to say is the byte that each one moves and when FX0A waits. -/

namespace Sys2Proof.Machine

/-! ### The random byte -/

/-- Settles O44: an instruction that does not draw a random byte commutes with a change of the count. -/
theorem randomByteIsIgnoredByTheOthers : Obligations.RandomByteIsIgnoredByTheOthers := by
  intro i s n hi
  exact exec_of_commutes (exec_retouch (fst := id) (fkey := id) (fdraws := fun _ => n) (.inl rfl) (.inl rfl) (.inr hi) s)

/-- Settles O43: CXKK ends in a result, the masked byte, and in one more byte drawn. -/
theorem randomByteIsMasked : Obligations.RandomByteIsMasked := by
  refine ⟨rowDecodes (.rnd 0 0), fun x kk s => ?_⟩
  have hexec : exec (.rnd x kk) s = .next (s.result x (s.rand &&& kk)).drawn := rfl
  refine ⟨_, hexec, fun b => ?_, State.drawn_draws _, exec_pcRule hexec, exec_keepsAllBut hexec⟩
  rw [State.reg_drawn, State.reg_result_same, BitVec.getLsbD_and, State.rand]

/-! ### The timers -/

/-- Settles O45: FX07 ends in a result, the delay timer, and FX15 and FX18 each in a write of one timer. -/
theorem timerMoves : Obligations.TimerMoves := by
  refine ⟨rowDecodes (.ldVxDt 0), rowDecodes (.ldDtVx 0), rowDecodes (.ldStVx 0), fun x s => ⟨?_, ?_, ?_⟩⟩
  · exact exec_completes_of_result (P := fun v => v = s.dt) rfl rfl
  · have hexec : exec (.ldDtVx x) s = .next (s.setDt (s.reg x)).advance := rfl
    exact ⟨_, hexec, rfl, exec_pcRule hexec, exec_keepsAllBut hexec⟩
  · have hexec : exec (.ldStVx x) s = .next (s.setSt (s.reg x)).advance := rfl
    exact ⟨_, hexec, rfl, exec_pcRule hexec, exec_keepsAllBut hexec⟩

/-! ### The key wait -/

section
variable {s : State}

/-- FX0A with no key pressed (R99). -/
theorem exec_ldVxK_of_noKey (x : RegIx) (hnone : s.leastKeyDown = none) : exec (.ldVxK x) s = .next s := by
  rw [exec, execLdVxK, hnone]

/-- FX0A with a key pressed (R99): it ends in a result, the number of the least pressed key. -/
theorem exec_ldVxK_of_leastKey (x : RegIx) {k : RegIx} (hk : s.leastKeyDown = some k) :
    exec (.ldVxK x) s = .next (s.result x (keyByte k)) := by
  rw [exec, execLdVxK, hk]

theorem waitsForKey_ldVxK (x : RegIx) : waitsForKey (.ldVxK x) s = s.leastKeyDown.isNone := rfl

/-- The outcome record of an instruction that waits for a key (R99, R111). -/
theorem stepReport_of_waiting {t : State} {w : Word} {i : Instr} (hf : fetch s = .ok w) (hd : decodeWord w = .ok i)
    (hexec : exec i s = .next t) (hwait : waitsForKey i s = true) : stepReport s = reportWaitKey := by
  simp only [stepReport, hf, hd, hexec, hwait, if_true]

/-- The outcome of a step that runs FX0A (R99). -/
theorem stepReport_status_of_ldVxK {w : Word} {x : RegIx} (hf : fetch s = .ok w) (hd : decodeWord w = .ok (.ldVxK x)) :
    (stepReport s).status = if ∃ k, s.keyDown k = true then .ok else .waitKey := by
  cases hscan : s.leastKeyDown with
  | none =>
    have hup : ¬ ∃ k, s.keyDown k = true := fun ⟨k, hk⟩ =>
      Bool.false_ne_true ((s.leastKeyDown_none.1 hscan k).symm.trans hk)
    have hwait : waitsForKey (.ldVxK x) s = true := by rw [waitsForKey_ldVxK, hscan, Option.isNone_none]
    rw [stepReport_of_waiting hf hd (exec_ldVxK_of_noKey x hscan) hwait, if_neg hup, reportWaitKey]
  | some k =>
    have hdown : s.keyDown k = true := ((s.leastKeyDown_some k).1 hscan).1
    have hwait : waitsForKey (.ldVxK x) s = false := by rw [waitsForKey_ldVxK, hscan, Option.isNone_some]
    rw [stepReport_of_completed hf hd (exec_ldVxK_of_leastKey x hscan) hwait, if_pos ⟨k, hdown⟩, reportOk]

end

/-- Settles O48: the key scan finds no key or the least one, and FX0A and its outcome follow the scan. -/
theorem keyWaitTakesTheLeastKey : Obligations.KeyWaitTakesTheLeastKey := by
  refine ⟨rowDecodes (.ldVxK 0), fun x s hnone => ?_, fun x k s hdown hleast => ?_, fun s w x => stepReport_status_of_ldVxK⟩
  · exact exec_ldVxK_of_noKey x (s.leastKeyDown_none.2 hnone)
  · have hscan : s.leastKeyDown = some k := (s.leastKeyDown_some k).2 ⟨hdown, hleast⟩
    exact exec_completes_of_result (P := fun v => v.toNat = k.val) (exec_ldVxK_of_leastKey x hscan) (keyByte_toNat k)

end Sys2Proof.Machine

/-! ## Display: CLS and DRW

The two instructions of 45_display.md. Their `PC` and their frame are those that every instruction has (`exec_pcRule`,
`exec_keepsAllBut`). What a DXYN draws follows from the laws of drawing rows (`drawRows_pixel`, `drawRows_hit`), once the rows
it loads are the sprite that memory holds at `I`. -/

namespace Sys2Proof.Machine

/-- Settles O49: 00E0 ends in a write of the screen, of the one that is clear. -/
theorem clearScreenClearsEveryPixel : Obligations.ClearScreenClearsEveryPixel := by
  refine ⟨rowDecodes .cls, fun s => ?_⟩
  have hexec : exec .cls s = .next ({ s with fb := FrameBuffer.clear } : State).advance := rfl
  exact ⟨_, hexec, FrameBuffer.pixel_clear, exec_pcRule hexec, exec_keepsAllBut hexec⟩

/-! ### The sprite of a DXYN -/

/-- The sprite of a DXYN that runs in `s` has a 1 at pixel `(px, py)` (R102). -/
def State.drwBit (s : State) (x y : RegIx) (n : Nibble) (px py : Nat) : Bool :=
  spriteBit s ((s.reg x).toNat % 64) ((s.reg y).toNat % 32) n.toNat px py

/-- The rows loaded from `I` are the sprite at `I` (R38, R100). -/
theorem rowsBit_load (s : State) (n x0 y0 px py : Nat) :
    rowsBit (s.mem.load s.i.toNat n) x0 y0 px py = spriteBit s x0 y0 n px py := by
  rw [rowsBit, spriteBit, Memory.length_load]
  by_cases h : x0 ≤ px ∧ px < x0 + 8 ∧ y0 ≤ py ∧ py < y0 + n
  · have hrow : py - y0 < (s.mem.load s.i.toNat n).length := by rw [Memory.length_load]; omega
    rw [List.getD_eq_getElem _ _ hrow, Memory.getElem_load, State.byte_eq]
  · rw [decide_eq_false h, Bool.false_and, Bool.false_and]

section
variable {s : State} {x y : RegIx} {n : Nibble}

theorem drawSprite_pixel {px py : Nat} (hx : px < 64) (hy : py < 32) :
    (s.drawSprite x y n.toNat).fb.pixel px py = (s.pixel px py ^^ s.drwBit x y n px py) := by
  rw [State.drawSprite, drawRows_pixel _ _ _ _ _ _ hx hy, rowsBit_load]
  rfl

theorem drawSprite_hit :
    (s.drawSprite x y n.toNat).hit = true ↔
      ∃ px py, px < 64 ∧ py < 32 ∧ s.pixel px py = true ∧ s.drwBit x y n px py = true := by
  simp only [State.drawSprite, drawRows_hit, rowsBit_load, Bool.false_eq_true, false_or]
  rfl

/-- The sprite depends on memory, `I` and the two registers of its origin alone (R102). -/
theorem drwBit_congr {t : State} (hmem : ∀ a, t.byte a = s.byte a) (hi : t.i = s.i) (hx : t.reg x = s.reg x)
    (hy : t.reg y = s.reg y) (px py : Nat) : t.drwBit x y n px py = s.drwBit x y n px py := by
  simp only [State.drwBit, spriteBit, hmem, hi, hx, hy]

/-! ### DXYN -/

theorem flagByte_eq_one_iff (c : Bool) : flagByte c = 1 ↔ c = true := by
  cases c <;> decide

/-- DXYN out of range (R102, R115). -/
theorem exec_drw_outOfRange (hn : 0 < n.toNat) (h : 0x0FFF < s.i.toNat + n.toNat - 1) :
    exec (.drw x y n) s = .fault (.addressError .data (max s.i.toNat 0x1000) s.pc) :=
  s.checked_outOfRange _ hn (by omega)

/-- DXYN in range (R102): the screen is XORed with the sprite, and VF is 1 iff a pixel that was 1 met a 1 of the sprite. -/
theorem exec_drw_completes (h : n.toNat = 0 ∨ s.i.toNat + n.toNat - 1 ≤ 0x0FFF) :
    ∃ t, exec (.drw x y n) s = .next t ∧
      (∀ px py, px < 64 → py < 32 → t.pixel px py = (s.pixel px py ^^ s.drwBit x y n px py)) ∧
      (t.reg vf = 1 ↔ ∃ px py, px < 64 ∧ py < 32 ∧ s.pixel px py = true ∧ s.drwBit x y n px py = true) := by
  refine ⟨_, s.checked_inRange _ (by omega), fun _ _ => drawSprite_pixel, ?_⟩
  rw [State.reg_advance, State.reg_setReg_same, flagByte_eq_one_iff, drawSprite_hit]

end

/-- Settles O50: a pixel that was 1 goes to 0 iff the sprite has a 1 on it. -/
theorem drawIsAClippedXor : Obligations.DrawIsAClippedXor := by
  refine ⟨rowDecodes (.drw 0 0 0), fun x y n s => ⟨exec_drw_outOfRange, fun hrange => ?_⟩⟩
  obtain ⟨t, hexec, hpixel, hvf⟩ := exec_drw_completes hrange
  have hflag := (vfIsWrittenOnlyAsAFlagOrARegister _ s t hexec).1 rfl
  refine ⟨t, hexec, hpixel, hflag, hvf.trans ?_, exec_pcRule hexec, exec_keepsAllBut hexec⟩
  refine exists₂_congr fun px py => and_congr_right fun hx => and_congr_right fun hy => and_congr_right fun hon => ?_
  rw [hpixel px py hx hy, hon, Bool.true_xor, Bool.not_eq_false']

/-- Settles O51: the first draw keeps what the sprite depends on, so the second XORs the same sprite, and a pixel under a 1 of
it is 1 after the first draw iff it was 0 before. -/
theorem drawingTwiceRestoresTheScreen : Obligations.DrawingTwiceRestoresTheScreen := by
  intro x y n s p hx hy hrange
  obtain ⟨t, hfirst, htpixel, -⟩ := exec_drw_completes (x := x) (y := y) hrange
  have hframe : KeepsAllBut [15] [.screen] s t := exec_keepsAllBut hfirst
  obtain ⟨hregs, hitems⟩ := hframe
  have hi : t.i = s.i := hitems .i (by decide)
  have hsprite : ∀ px py, ({ t with pc := p } : State).drwBit x y n px py = s.drwBit x y n px py :=
    drwBit_congr (hitems .memory (by decide)) hi (hregs x (mt List.mem_singleton.1 hx)) (hregs y (mt List.mem_singleton.1 hy))
  obtain ⟨u, hsecond, hupixel, hvf⟩ := exec_drw_completes (s := { t with pc := p }) (x := x) (y := y) (hi ▸ hrange)
  simp only [hsprite] at hupixel hvf
  refine ⟨t, u, hfirst, hsecond, FrameBuffer.ext_pixel fun px py hpx hpy => ?_, hvf.trans ?_⟩
  · calc u.pixel px py = (t.pixel px py ^^ s.drwBit x y n px py) := hupixel px py hpx hpy
      _ = s.pixel px py := by rw [htpixel px py hpx hpy, Bool.xor_assoc, Bool.xor_self, Bool.xor_false]
  · refine exists₂_congr fun px py => and_congr_right fun hpx => and_congr_right fun hpy =>
      and_congr_left fun (hbit : s.drwBit x y n px py = true) => ?_
    change t.pixel px py = true ↔ s.pixel px py = false
    rw [htpixel px py hpx hpy, hbit, Bool.xor_true, Bool.not_eq_true']

end Sys2Proof.Machine

/-! ## Exceptions: faults, the invalid opcode and the outcome record

60_exceptions.md. The instructions that fault, with the condition of each, are O11; its conditions read `PC`, `I` and `SP`
alone, so a fault does not depend on the rest of the state. What a step reports is said once, by `stepReport_cases`. -/

namespace Sys2Proof.Machine

/-! ### Which instruction faults, and when -/

section
variable {s : State} {f : Fault}

/-- An access that faults was out of range (R36, R115). -/
theorem State.checked_fault {t : State} {len : Nat} (h : s.checked len (.next t) = .fault f) :
    f = .addressError .data (max s.i.toNat 0x1000) s.pc ∧ 0 < len ∧ 0x0FFF < s.i.toNat + len - 1 := by
  rcases s.checked_cases len (.next t) with ⟨-, hc⟩ | ⟨hrange, hc⟩
  · cases hc.symm.trans h
  · cases hc.symm.trans h
    exact ⟨rfl, (outOfRange_iff _ _).1 hrange⟩

/-- 2NNN faults on a full stack alone (R113). -/
theorem execCall_fault {nnn : Addr12} (h : execCall nnn s = .fault f) : f = .stackOverflow s.pc ∧ s.sp.val = 16 := by
  unfold execCall at h
  rcases s.push_cases s.pc with ⟨_, hpush⟩ | ⟨hfull, hpush⟩ <;> rw [hpush] at h <;> cases h
  exact ⟨rfl, hfull⟩

/-- 00EE faults on an empty stack alone (R114). -/
theorem execRet_fault (h : execRet s = .fault f) : f = .stackUnderflow s.pc ∧ s.sp.val = 0 := by
  unfold execRet at h
  rcases s.pop_cases with ⟨_, _, -, -, hpop⟩ | ⟨hempty, hpop⟩ <;> rw [hpop] at h <;> cases h
  exact ⟨rfl, hempty⟩

theorem execLdVxK_ne_fault {x : RegIx} : execLdVxK x s ≠ .fault f := by
  unfold execLdVxK
  split <;> nofun

end

/-- Settles O11, by the instructions: the two of the stack, the four that check an access list, and all others, which do not
fault. -/
theorem faultsOnlyFromTheirInstructions : Obligations.FaultsOnlyFromTheirInstructions := by
  intro i s f h
  cases i with
  | call nnn =>
    obtain ⟨hf, hfull⟩ := execCall_fault h
    exact .inl ⟨hf, hfull, nnn, rfl⟩
  | ret =>
    obtain ⟨hf, hempty⟩ := execRet_fault h
    exact .inr (.inl ⟨hf, hempty, rfl⟩)
  | drw x y n =>
    obtain ⟨hf, hpos, hrange⟩ := State.checked_fault h
    exact .inr (.inr ⟨hf, .inl ⟨x, y, n, rfl, hpos, hrange⟩⟩)
  | ldB x =>
    obtain ⟨hf, -, hrange⟩ := State.checked_fault h
    rw [length_bcdDigits] at hrange
    exact .inr (.inr ⟨hf, .inr (.inl ⟨x, rfl, by omega⟩)⟩)
  | storeRegs x =>
    obtain ⟨hf, -, hrange⟩ := State.checked_fault h
    rw [State.length_regBytes] at hrange
    exact .inr (.inr ⟨hf, .inr (.inr (.inl ⟨x, rfl, hrange⟩))⟩)
  | loadRegs x =>
    obtain ⟨hf, -, hrange⟩ := State.checked_fault h
    exact .inr (.inr ⟨hf, .inr (.inr (.inr ⟨x, rfl, hrange⟩))⟩)
  | ldVxK => exact absurd h execLdVxK_ne_fault
  | cls | jp | jpV0 | seImm | sneImm | seReg | sneReg | skp | sknp | ldImm | addImm | ldReg | orReg | andReg | xorReg
  | addReg | subReg | shr | subnReg | shl | ldI | rnd | ldVxDt | ldDtVx | ldStVx | addI | ldF => cases h

/-! ### What a fault depends on -/

section
variable {s t : State} {f : Fault} (hpc : t.pc = s.pc) (hi : t.i = s.i) (hsp : t.sp = s.sp)
include hpc hi hsp

/-- The fault of an instruction depends on `PC`, `I` and `SP` alone. -/
theorem exec_fault_congr {i : Instr} (h : exec i s = .fault f) : exec i t = .fault f := by
  rcases faultsOnlyFromTheirInstructions i s f h with
    ⟨rfl, hfull, nnn, rfl⟩ | ⟨rfl, hempty, rfl⟩ |
    ⟨rfl, ⟨x, y, n, rfl, hn, hr⟩ | ⟨x, rfl, hr⟩ | ⟨x, rfl, hr⟩ | ⟨x, rfl, hr⟩⟩
  · exact hpc ▸ exec_call_overflows nnn (hsp ▸ hfull)
  · exact hpc ▸ exec_ret_underflows (hsp ▸ hempty)
  · exact hpc ▸ hi ▸ exec_drw_outOfRange hn (hi.symm ▸ hr)
  · exact hpc ▸ hi ▸ exec_ldB_outOfRange (hi.symm ▸ hr)
  · exact hpc ▸ hi ▸ exec_storeRegs_outOfRange (hi.symm ▸ hr)
  · exact hpc ▸ hi ▸ exec_loadRegs_outOfRange (hi.symm ▸ hr)

/-- The fault of a step depends on memory and on `PC`, `I` and `SP` alone. -/
theorem step_fault_congr (hmem : t.mem = s.mem) (h : step s = .fault f) : step t = .fault f := by
  have hfetch : fetch t = fetch s := by simp only [fetch, State.byte, hpc, hmem]
  cases hf : fetch s with
  | error g =>
    cases (step_of_fetch_error hf).symm.trans h
    exact step_of_fetch_error (hfetch.trans hf)
  | ok w =>
    cases hd : decodeWord w with
    | error r => cases (step_invalidOpcode hf hd).symm.trans h
    | ok i =>
      rw [step_of_decoded hf hd] at h
      rw [step_of_decoded (hfetch.trans hf) hd]
      exact exec_fault_congr hpc hi hsp h

end

/-- Settles O13: neither operation writes memory, `PC`, `I` or `SP`. -/
theorem faultSurvivesKeysAndTicks : Obligations.FaultSurvivesKeysAndTicks :=
  fun s _ _ _ h => ⟨step_fault_congr (s := s) rfl rfl rfl rfl h, step_fault_congr (s := s) rfl rfl rfl rfl h⟩

/-! ### The outcome record -/

section
variable {s : State} {w : Word} {f : Fault}

theorem stepReport_of_invalidOpcode {r : Reject} (hf : fetch s = .ok w) (hd : decodeWord w = .error r) :
    stepReport s = reportInvalidOpcode w s.pc := by
  simp only [stepReport, hf, hd]

/-- A step that faults, in the fetch or in the instruction, reports its fault (R116). -/
theorem stepReport_of_fault (h : step s = .fault f) : stepReport s = reportFault f := by
  cases hf : fetch s with
  | error g =>
    cases (step_of_fetch_error hf).symm.trans h
    simp only [stepReport, hf]
  | ok w =>
    cases hd : decodeWord w with
    | error r => cases (step_invalidOpcode hf hd).symm.trans h
    | ok i =>
      have hexec : exec i s = .fault f := (step_of_decoded hf hd).symm.trans h
      simp only [stepReport, hf, hd, hexec]

/-- Only FX0A waits, and only while no key is pressed (R99). -/
theorem waitsForKey_iff {i : Instr} : waitsForKey i s = true ↔ ∃ x, i = .ldVxK x ∧ s.leastKeyDown = none := by
  unfold waitsForKey
  split
  · next x => simp
  · next hother => exact ⟨nofun, fun ⟨x, hx, _⟩ => absurd hx (hother x)⟩

/-- Everything a step can report (R111), with what it did. -/
theorem stepReport_cases (s : State) :
    (∃ w i t, fetch s = .ok w ∧ decodeWord w = .ok i ∧ exec i s = .next t ∧ stepReport s = reportOk) ∨
    (∃ w x, fetch s = .ok w ∧ decodeWord w = .ok (.ldVxK x) ∧ s.leastKeyDown = none ∧ stepReport s = reportWaitKey) ∨
    (∃ w r, fetch s = .ok w ∧ decodeWord w = .error r ∧ stepReport s = reportInvalidOpcode w s.pc) ∨
    ∃ f, step s = .fault f ∧ stepReport s = reportFault f := by
  rcases step_cases s with ⟨-, hfault⟩ | ⟨w, r, -, hf, hd, -⟩ | ⟨w, i, -, hf, hd, hstep⟩
  · exact .inr (.inr (.inr ⟨_, hfault, stepReport_of_fault hfault⟩))
  · exact .inr (.inr (.inl ⟨w, r, hf, hd, stepReport_of_invalidOpcode hf hd⟩))
  · cases hexec : exec i s with
    | next t =>
      cases hwait : waitsForKey i s with
      | false => exact .inl ⟨w, i, t, hf, hd, hexec, stepReport_of_completed hf hd hexec hwait⟩
      | true =>
        obtain ⟨x, rfl, hnone⟩ := waitsForKey_iff.1 hwait
        exact .inr (.inl ⟨w, x, hf, hd, hnone, stepReport_of_waiting hf hd hexec hwait⟩)
    | fault f =>
      have hfault : step s = .fault f := hstep.trans hexec
      exact .inr (.inr (.inr ⟨f, hfault, stepReport_of_fault hfault⟩))
    | refused r => exact absurd hexec exec_ne_refused

/-- The codes of R110, one per fault. -/
theorem faultCode_eq (f : Fault) :
    (∀ pc, f = .stackOverflow pc → faultCode f = 2) ∧ (∀ pc, f = .stackUnderflow pc → faultCode f = 3) ∧
    ∀ kind addr pc, f = .addressError kind addr pc → faultCode f = 4 :=
  ⟨fun _ h => h ▸ rfl, fun _ h => h ▸ rfl, fun _ _ _ h => h ▸ rfl⟩

theorem faultCode_range (f : Fault) : faultCode f = 2 ∨ faultCode f = 3 ∨ faultCode f = 4 := by
  cases f with
  | stackOverflow => exact .inl rfl
  | stackUnderflow => exact .inr (.inl rfl)
  | addressError => exact .inr (.inr rfl)

end

/-- Settles O9: the step falls through, and the record names the opcode and its address. -/
theorem invalidOpcodeOnlyAdvances : Obligations.InvalidOpcodeOnlyAdvances :=
  fun _ _ _ hf hd => ⟨step_invalidOpcode hf hd, stepReport_of_invalidOpcode hf hd⟩

/-- Settles O10: the record is that of the fault, and the state after the step is the one before. -/
theorem faultLeavesTheStateAsItWas : Obligations.FaultLeavesTheStateAsItWas := by
  intro s f h
  refine ⟨faultCode f, ?_, faultCode_eq f⟩
  rw [perform, stepReport_of_fault h, stateAfterStep_of_fault h, reportFault]

/-- Settles O14: each of the four ways a step can end has a status of its own. -/
theorem outcomeSaysWhatTheStepDid : Obligations.OutcomeSaysWhatTheStepDid := by
  intro s
  rcases stepReport_cases s with ⟨w, i, t, hf, hd, hexec, hreport⟩ | ⟨w, x, hf, hd, hnone, hreport⟩ |
    ⟨w, r, hf, hd, hreport⟩ | ⟨f, hfault, hreport⟩ <;> rw [hreport]
  · exact ⟨fun _ => ⟨rfl, w, i, t, hf, hd, hexec, (step_of_decoded hf hd).trans hexec⟩, nofun, nofun, nofun⟩
  · have hstep : step s = .next s := (step_of_decoded hf hd).trans (exec_ldVxK_of_noKey x hnone)
    exact ⟨nofun, fun _ => ⟨rfl, hstep, s.leastKeyDown_none.1 hnone, w, x, hf, hd⟩, nofun, nofun⟩
  · exact ⟨nofun, nofun, fun _ => ⟨rfl, step_invalidOpcode hf hd, w, r, hf, hd⟩, nofun⟩
  · exact ⟨nofun, nofun, nofun, fun _ =>
      ⟨faultCode_range f, stateAfterStep_of_fault hfault, f, hfault, rfl, faultCode_eq f⟩⟩

end Sys2Proof.Machine

/-! ## The host's timers, keys and display

`tick_timers`, `set_key` and `read_fb` (R121 to R123): what each writes or reads, and its frame. -/

namespace Sys2Proof.Machine

/-- A tick takes one off, and stops at 0 (R121). -/
theorem tickByte_toNat (t : Byte) : (tickByte t).toNat = t.toNat - 1 := by
  unfold tickByte
  split
  · next h => rw [h]; rfl
  · next h => bv_omega

theorem keepsAllBut_tickTimers (s : State) : KeepsAllBut [] [.dt, .st] s (tickTimers s) :=
  (keepsAllBut_setDt (by decide) s (tickByte s.dt)).trans (keepsAllBut_setSt (by decide) _ (tickByte s.st))

/-- Settles O52: each timer is its own tick, and the two writes have the frame of the two timers. -/
theorem tickDecrementsBothTimers : Obligations.TickDecrementsBothTimers :=
  fun s => ⟨rfl, tickByte_toNat s.dt, tickByte_toNat s.st, rfl, keepsAllBut_tickTimers s⟩

theorem keyDown_setKey (k : RegIx) (b : Bool) (s : State) (j : RegIx) :
    (setKey k b s).keyDown j = if j = k then b else s.keyDown j := by
  simp only [State.keyDown, setKey, Vector.getElem_set, Fin.ext_iff, eq_comm]

theorem keepsAllBut_setKey (k : RegIx) (b : Bool) (s : State) : KeepsAllBut [] [.keys] s (setKey k b s) :=
  .of_item List.mem_cons_self rfl fun it hne => by cases it <;> simp [SameItem, setKey] at hne ⊢

/-- Settles O53: a write of one key, with the frame of the keys. -/
theorem setKeyWritesOneKey : Obligations.SetKeyWritesOneKey :=
  fun k b s => ⟨rfl, keyDown_setKey k b s, rfl, keepsAllBut_setKey k b s⟩

/-- Pixel `(x, y)` has the number `y*64 + x` (R17, R123). -/
theorem readFb_toNat {idx : Fin 2048} {x y : Nat} (s : State) (hx : x < 64) (hidx : idx.val = y * 64 + x) :
    (readFb idx s).toNat = if s.pixel x y = true then 1 else 0 := by
  have hcol : idx.val % Config.fbWidth = x := by rw [Config.fbWidth]; omega
  have hrow : idx.val / Config.fbWidth = y := by rw [Config.fbWidth]; omega
  rw [readFb, hcol, hrow, flagByte_toNat]

/-- Settles O54: the byte is the flag of the pixel that has the number. -/
theorem readFbGivesThePixel : Obligations.ReadFbGivesThePixel :=
  fun idx _ _ s hx _ hidx => ⟨readFb idx s, rfl, readFb_toNat s hx hidx⟩

end Sys2Proof.Machine

/-! ## Reset and load by the host

`reset` and `load_program` (R130, R132): what each gives from any state. -/

namespace Sys2Proof.Machine

/-- A reset by the host leaves every item of the reset state; only `draws`, which R23 does not list, goes on. -/
theorem resetValues_hostReset (s : State) : ResetValues (hostReset s) :=
  resetStateHasTheValuesOfTheTable

theorem hostReset_hostReset (s : State) : hostReset (hostReset s) = hostReset s :=
  rfl

/-- Settles O16: a reset gives the values of R23 whatever the state before, and a second one changes nothing. -/
theorem resetFromAnyState : Obligations.ResetFromAnyState :=
  fun s => ⟨rfl, resetValues_hostReset s, hostReset_hostReset s⟩

theorem perform_loadProgram_of_tooLarge {bytes : List Byte} (s : State) (h : Config.maxProg < bytes.length) :
    perform (.loadProgram bytes) s = (.loadFailed programTooLargeCode (.programTooLarge bytes.length), s) := by
  rw [perform, loadProgram, if_pos h]

theorem perform_loadProgram_of_fits {bytes : List Byte} (s : State) (h : bytes.length ≤ Config.maxProg) :
    perform (.loadProgram bytes) s = (.done, { s with mem := s.mem.store Config.progBase bytes }) := by
  rw [perform, loadProgram, if_neg (Nat.not_lt.2 h)]

/-- Settles O55: a program that fits is one block store at 0x200, which reads back inside the block and leaves the rest; one
that is too long returns before the store. -/
theorem loadProgramCopiesAllOrNothing : Obligations.LoadProgramCopiesAllOrNothing := by
  intro bytes s
  constructor
  · intro hlong
    exact perform_loadProgram_of_tooLarge s hlong
  · intro hfits
    rw [perform_loadProgram_of_fits s hfits]
    exact ⟨rfl, Memory.read_store_inside s.mem Config.progBase bytes, Memory.read_store_outside s.mem Config.progBase bytes,
      rfl, keepsAllBut_setMem List.mem_cons_self s _⟩

end Sys2Proof.Machine
